-- ==== Sys2Proof/Word.lean ====
section
/-!
DEFINITION. The machine word and the argument field (30_encoding.md R70; 00_scope.md R9).
-/

namespace Sys2Proof

/-- A word: 32 bits, the unit of memory and the size of every instruction (R9, R21, R51). -/
abbrev Word := BitVec 32

/-- The argument field of an instruction: 24 bits, unsigned (R70, R72). -/
abbrev Arg := BitVec 24

/-- The opcode byte of an instruction word (R70). -/
abbrev OpByte := BitVec 8

end Sys2Proof
end

