-- ==== Sys2Proof/Config.lean ====
section
/-!
DEFINITION. What one implementation fixes: the parameter table of 00_scope.md R8. No behaviour of this hardware is left as an
undefined value after an instruction, so there is no free value here.
-/

namespace Sys2Proof

/-- The least memory size CONSTRUCT accepts (R7, D1). -/
def Config.minMemSize : Nat := 1

/-- The greatest memory size CONSTRUCT accepts, 2^31 - 1 (R7, D1). -/
def Config.maxMemSize : Nat := 2147483647

/-- DESIGN CHOICE (log 3, unsafe): the memory size of the machine `State.reset` stands for. The source leaves the size to whoever
constructs the machine (R7); 100 is its own example. CONSTRUCT gives any other. -/
def Config.resetMemSize : Nat := 100

/-- DESIGN CHOICE (log 2, unsafe): what an unlisted address of the memory list reads as. MEM_INIT is open (R34, D2); all words
zero is the spec's suggested instantiation. CONSTRUCT carries any other MEM_INIT as data. -/
def Config.unlistedWord : Word := 0#32

/-- The verbose flag after CONSTRUCT: false (R34; the spec's decision D13, log 18). -/
def Config.verboseAtReset : Bool := false

/-- `PRINT_SIGNED` of R8: PRINT renders a word with bit 31 set as a negative number (R132; the spec's decision D5, log 12). -/
def Config.printSigned : Bool := true

end Sys2Proof
end

