-- ==== Sys2Proof/Syntax.lean ====
section
/-!
DEFINITION. The instructions: one constructor per row of spec/opcode_table.json.
-/

namespace Sys2Proof

/-- The closed instruction set (30_encoding.md R76). Every instruction word carries the 24-bit argument field of R70. NOP, MULT,
RET, STOP and PRINT ignore it (R78), but it is kept, so that encoding a decoded word gives the word back (R79). -/
inductive Instr where
  /-- Opcode 0: no operation (41_system_nop_stop.md R110). -/
  | nop (arg : Arg)
  /-- Opcode 1: multiply the two top stack words (42_arithmetic_mult.md R115). -/
  | mult (arg : Arg)
  /-- Opcode 2: absolute jump to `arg` (43_control_call_ret.md R120). -/
  | call (arg : Arg)
  /-- Opcode 4: pop a word and jump to it (43_control_call_ret.md R121). -/
  | ret (arg : Arg)
  /-- Opcode 5: halt (41_system_nop_stop.md R111). -/
  | stop (arg : Arg)
  /-- Opcode 6: pop a word and emit its decimal text (44_stack_io_print_push.md R130). -/
  | print (arg : Arg)
  /-- Opcode 7: push `arg` (44_stack_io_print_push.md R131). -/
  | push (arg : Arg)
deriving DecidableEq, Repr

end Sys2Proof
end

