-- ==== Sys2Proof/Decode.lean ====
section
/-!
DEFINITION. The codec of 30_encoding.md: the opcode table, `decode`, `lookup`, `encode`, and the instruction a word stands for.
-/

namespace Sys2Proof

/-- The members of the closed opcode table (R76): what INSERT names (45_host_commands.md R145) and `lookup` answers. -/
inductive Opcode where
  | nop | mult | call | ret | stop | print | push
deriving DecidableEq, Repr

/-- The fixed numeric codes (R76). Code 3 is reserved and belongs to no member (R77). -/
def Opcode.code : Opcode → OpByte
  | .nop => 0#8
  | .mult => 1#8
  | .call => 2#8
  | .ret => 4#8
  | .stop => 5#8
  | .print => 6#8
  | .push => 7#8

/-- `decode(word)` of R74: the opcode byte `word[31:24]` and the argument `word[23:0]`. Total. -/
def decode (w : Word) : OpByte × Arg :=
  (w.extractLsb' 24 8, w.extractLsb' 0 24)

/-- `lookup(opcodeByte)` of R75: the table's member, or none for 3 and for 8 to 255. -/
def lookup (b : OpByte) : Option Opcode :=
  match b.toNat with
  | 0 => some .nop
  | 1 => some .mult
  | 2 => some .call
  | 4 => some .ret
  | 5 => some .stop
  | 6 => some .print
  | 7 => some .push
  | _ => none

/-- The instruction that an opcode makes with an argument. -/
def Opcode.instr : Opcode → Arg → Instr
  | .nop, a => .nop a
  | .mult, a => .mult a
  | .call, a => .call a
  | .ret, a => .ret a
  | .stop, a => .stop a
  | .print, a => .print a
  | .push, a => .push a

/-- What decoding a word gives. -/
inductive Decoded where
  /-- The word is this instruction. -/
  | instr (i : Instr)
  /-- The opcode byte is 3 or in 8 .. 255: an illegal instruction (R77). The engine raises InvalidInstruction for it (R95). -/
  | invalid (opcodeByte : OpByte)
deriving DecidableEq, Repr

/-- `decode` and then `lookup` (R95): the instruction a word stands for, or the rejection that names its opcode byte. Total on
every word. -/
def decodeWord (w : Word) : Decoded :=
  match lookup (decode w).1 with
  | some op => .instr (op.instr (decode w).2)
  | none => .invalid (decode w).1

/-- `encode(opcode, arg)` of R73: the opcode byte above `trunc_24(arg)`, the low 24 bits of any integer, negative ones in two's
complement (the spec's decision D20, log 22). -/
def encode (op : Opcode) (x : Int) : Word :=
  op.code ++ BitVec.ofInt 24 x

/-- The opcode of an instruction. -/
def Instr.opcode : Instr → Opcode
  | .nop _ => .nop
  | .mult _ => .mult
  | .call _ => .call
  | .ret _ => .ret
  | .stop _ => .stop
  | .print _ => .print
  | .push _ => .push

/-- The argument field of an instruction. -/
def Instr.argument : Instr → Arg
  | .nop a => a
  | .mult a => a
  | .call a => a
  | .ret a => a
  | .stop a => a
  | .print a => a
  | .push a => a

/-- The word of an instruction (R70, R73). -/
def encodeInstr (i : Instr) : Word :=
  encode i.opcode i.argument.toNat

/-- The word whose low `nbits` bits are those of `w` and whose other bits are zero. Every instruction is one word (R71). -/
def tableWord (nbits w : Nat) : Word :=
  BitVec.ofNat 32 (w % 2 ^ nbits)

/-- The instruction this decoder reads from an instruction whose bits are `w`, numbered as spec/opcode_table.json numbers them. -/
def decodeTableWord (nbits w : Nat) : Option Instr :=
  match decodeWord (tableWord nbits w) with
  | .instr i => some i
  | .invalid _ => none

end Sys2Proof
end

