-- ==== Sys2Proof/Machine/State.lean ====
section
/-!
DEFINITION. The state of the machine (10_state.md), the host's commands and replies (45_host_commands.md), the reasons a step can
stop, and the state after reset.
-/

namespace Sys2Proof.Machine

/-- A memory: the words that differ from what an unlisted address reads as, by address, addresses strictly rising. A cell is one
whole 32-bit word and is never split (20_memory.md R53, log 1). -/
abbrev Memory := List (Nat × Word)

/-- The run state (10_state.md R25). The source gives the three values no numeric encoding. -/
inductive RunState where
  /-- Program construction: INSERT is allowed. -/
  | initializing
  /-- The engine is executing, or it stopped on a fault. -/
  | running
  /-- A STOP instruction was executed. -/
  | stopped
deriving DecidableEq, Repr

/-- The error conditions (60_exceptions.md R160), in the order of their codes. -/
inductive ErrorName where
  /-- A pop below the stack bottom (R91). -/
  | stackUnderflow
  /-- A push at the last valid index (R90). -/
  | stackOverflow
  /-- A move of the pc to N or above (R92), or an advance from the last valid index (R93). -/
  | programCounterOverflow
  /-- INSERT outside INITIALIZING (R144). A reply only: no engine step raises it. -/
  | invalidInsertState
  /-- INSERT with the pc at N (R144). A reply only: no engine step raises it. -/
  | insertAddressOutOfRange
  /-- An opcode byte outside the table (R95). -/
  | invalidInstruction
  /-- A fetch with the pc at N (R94; the spec's own addition, D7, log 14). -/
  | fetchAddressOutOfRange
deriving DecidableEq, Repr

/-- The elements of the event stream (10_state.md R29). The payloads of debug events are the spec's decision D14 (log 17). -/
inductive Event where
  /-- `Output(text)`: the decimal text of a printed word. -/
  | output (text : String)
  /-- `Debug(INSERT, addr, word)`: the address written and the encoded word. -/
  | debugInsert (addr : Nat) (word : Word)
  /-- `Debug(PC_MOVE, addr)`: the new pc. -/
  | debugPcMove (addr : Nat)
  /-- `Debug(PC_ADVANCE, addr)`: the new pc. -/
  | debugPcAdvance (addr : Nat)
  /-- `Debug(PUSH, addr, word)`: the slot written and the word. -/
  | debugPush (addr : Nat) (word : Word)
  /-- `Debug(POP, addr, word)`: the slot read and the word. -/
  | debugPop (addr : Nat) (word : Word)
deriving DecidableEq, Repr

/-- The host's commands (45_host_commands.md R140). -/
inductive Command where
  /-- `CONSTRUCT(N, MEM_INIT)` (R142). `memInit` lists MEM_INIT: the first cell of an address counts, an address in no cell holds
  what an unlisted address reads as, and a cell outside 0 .. N-1 says nothing (log 2). -/
  | construct (size : Nat) (memInit : List (Nat × Word))
  /-- `SET_ADDRESS(a)` (R143): `a` unsigned, 0 .. 2^32 - 1. -/
  | setAddress (a : Word)
  /-- `INSERT(ins, x)` (R144, R145): one of the seven opcodes and a 32-bit value. -/
  | insert (ins : Opcode) (x : Word)
  /-- `SET_VERBOSE(b)` (R146). -/
  | setVerbose (b : Bool)
  /-- `START` (R147, R148). -/
  | start
deriving DecidableEq, Repr

/-- A reply to a command (R140, R141, R147). -/
inductive Reply where
  | ok
  | error (e : ErrorName)
deriving DecidableEq, Repr

/-- The state. The first nine fields are the spec's (10_state.md R21 to R28; `memSize` is the length N of R21 and R7); `script`
and `replies` are the model's own: the host's side of the command interface as data (log 5, log 6). -/
structure State where
  /-- The memory's words (R21). -/
  mem : Memory
  /-- The memory length N (R7, R21, log 4). -/
  memSize : Nat
  /-- The program counter (R22). -/
  pc : Nat
  /-- The stack pointer: an exact integer, below the stack bottom after a StackUnderflow (R23, D21). -/
  sp : Int
  /-- The stack bottom (R24). -/
  sb : Nat
  /-- The run state (R25). -/
  rs : RunState
  /-- The verbose flag (R26). -/
  verbose : Bool
  /-- The fault latch (R27). -/
  fault : Option ErrorName
  /-- The events emitted since construction, oldest first (R28). -/
  out : List Event
  /-- MODEL'S OWN (log 5): the commands the host has still to present, the next one first. -/
  script : List Command
  /-- MODEL'S OWN (log 6): the replies the host has been given, oldest first. -/
  replies : List Reply
deriving DecidableEq, Repr

/-- Why the machine has no step. None of these replaces a fault of the spec: those are next states with the latch set (R166). -/
inductive Fault where
  /-- Raised by `step` in INITIALIZING when the host has no command left: the machine waits for the host (70_reset_and_hazards.md
  R190). Safe: the model stops where the machine does nothing (log 8). -/
  | waitingForHost
  /-- Raised by `step` after a STOP when the host has no command left: the run is completed and no step is enabled (R101). Safe
  (log 8). -/
  | runCompleted
  /-- Raised by `step` with the latch set when the host has no command left: the run faulted and no step is enabled (R101, R166).
  Safe (log 8). -/
  | runFaulted (e : ErrorName)
  /-- Raised by the memory primitives for an address outside 0 .. N-1. The spec's checks come first (20_memory.md R56), so no
  reachable state raises it; it keeps the model from inventing a word in the others. Safe (log 9). -/
  | addressOutsideMemory (a : Int)
deriving DecidableEq, Repr

/-- Why the model gives a situation no meaning. -/
inductive Refusal where
  /-- Raised by `exec`'s arm for an instruction that has no meaning yet. Safe. No arm uses it. -/
  | notModelled (mnemonic : String)
  /-- Raised by CONSTRUCT with a size outside 1 .. 2^31 - 1: refused by the spec (R142, U12). Safe (log 10). -/
  | constructSize
  /-- Raised by SET_ADDRESS outside INITIALIZING: refused by the spec (R143, U9). Unsafe for a claim about every host (log 10). -/
  | setAddressAfterStart
  /-- Raised by SET_VERBOSE outside INITIALIZING: refused by the spec (R146, U9). Unsafe for a claim about every host (log 10). -/
  | setVerboseAfterStart
  /-- Raised by START with the latch set: refused by the spec (R148, U8). Unsafe for a claim about every host (log 10). -/
  | startAfterFault
  /-- Raised by any command presented while a run is in progress: refused by the spec (R140, U10). Safe; `step` presents none then
  (log 10). -/
  | commandDuringRun
deriving DecidableEq, Repr

/-- The machine right after `CONSTRUCT(100, all zero)`, the host having nothing to present yet (10_state.md R34, R190, R191). The
size and the memory content are the model's choice (log 2, log 3). -/
def State.reset : State where
  mem := []
  memSize := Config.resetMemSize
  pc := 0
  sp := 0
  sb := 0
  rs := .initializing
  verbose := Config.verboseAtReset
  fault := none
  out := []
  script := []
  replies := []

end Sys2Proof.Machine
end

