-- ==== Sys2Proof/Machine/Ops.lean ====
section
/-!
DEFINITION. The operations over memory and registers: reading and writing a word, the event stream, raising a fault, the
primitives of the Machine State (40_execution_engine.md R90 to R94) and the execution template (R97).
-/

namespace Sys2Proof.Machine

/-- One answer of a step. -/
abbrev Answer := Host.Outcome State Fault Refusal

/-! Memory. -/

/-- `mem[a]` (20_memory.md R55): the listed word, or what an unlisted address reads as. -/
def Memory.read : Memory → Nat → Word
  | [], _ => Config.unlistedWord
  | (b, w) :: m, a => if a = b then w else Memory.read m a

/-- `mem[a] <- v`, keeping the canonical form: addresses rise strictly and no entry holds what an unlisted address reads as. -/
def Memory.write : Memory → Nat → Word → Memory
  | [], a, v => if v = Config.unlistedWord then [] else [(a, v)]
  | (b, w) :: m, a, v =>
    if a < b then
      if v = Config.unlistedWord then (b, w) :: m else (a, v) :: (b, w) :: m
    else if a = b then
      if v = Config.unlistedWord then m else (a, v) :: m
    else
      (b, w) :: Memory.write m a v

/-- The memory of N words whose content is listed by `cells` (MEM_INIT of 45_host_commands.md R142). -/
def Memory.ofCells (n : Nat) : List (Nat × Word) → Memory
  | [] => []
  | (a, v) :: cells => if a < n then Memory.write (Memory.ofCells n cells) a v else Memory.ofCells n cells

/-- Every address is at least `lo`, addresses rise strictly, and no entry holds what an unlisted address reads as. -/
def Memory.risingFrom : Nat → Memory → Bool
  | _, [] => true
  | lo, (a, v) :: m => decide (lo ≤ a) && decide (v ≠ Config.unlistedWord) && Memory.risingFrom (a + 1) m

/-- The canonical form of a memory. -/
def Memory.wf (m : Memory) : Bool := Memory.risingFrom 0 m

/-- Every listed address is below `n`. -/
def Memory.within (n : Nat) (m : Memory) : Bool := m.all fun c => decide (c.1 < n)

/-! Events, replies, and the enabling of the engine. -/

/-- `emit e` (00_scope.md R11). -/
def State.emit (s : State) (e : Event) : State := { s with out := s.out ++ [e] }

/-- The events of a traced operation: the one event when verbose, none otherwise (R11, R26). -/
def State.traced (s : State) (e : Event) : List Event := if s.verbose then [e] else []

/-- `trace(e)` (R11). -/
def State.trace (s : State) (e : Event) : State := { s with out := s.out ++ s.traced e }

/-- The host is given a reply (45_host_commands.md R140). -/
def State.reply (s : State) (r : Reply) : State := { s with replies := s.replies ++ [r] }

/-- A run is in progress: the engine's step is enabled (40_execution_engine.md R98) and the host can present nothing (R140). -/
abbrev State.enabled (s : State) : Prop := s.rs = .running ∧ s.fault = none

/-- The fault codes (60_exceptions.md R160); 0 stands for no fault. The numbers are the spec's decision D19 (log 24). -/
def ErrorName.code : ErrorName → Nat
  | .stackUnderflow => 1
  | .stackOverflow => 2
  | .programCounterOverflow => 3
  | .invalidInsertState => 4
  | .insertAddressOutOfRange => 5
  | .invalidInstruction => 6
  | .fetchAddressOutOfRange => 7

/-- The code the fault latch holds (R160). -/
def State.faultCode (s : State) : Nat :=
  match s.fault with
  | none => 0
  | some e => e.code

/-! Raising. There is no return from a fault (60_exceptions.md R168), so none stands beside `takeFault`. -/

/-- What a fault does (60_exceptions.md R166): the latch is set and START replies the fault to the host; everything done earlier in
the step stays, rs and pc are not changed, no event is emitted. -/
def takeFault (e : ErrorName) (s : State) : State :=
  State.reply { s with fault := some e } (.error e)

/-- How an operation ends. -/
inductive Flow (α : Type) where
  /-- It completed with this value, in this state. -/
  | done (a : α) (s : State)
  /-- It raised (00_scope.md R11, R12): the state holds what was done before the `raise`. -/
  | raise (e : ErrorName) (s : State)
  /-- It would access an address that does not exist; no reachable state does (20_memory.md R56). -/
  | stuck (f : Fault)
deriving Repr

/-- Go on with `k` unless `x` raised (R12: nothing after a `raise` is performed, nothing before it is undone). -/
def Flow.andThen {α β : Type} (x : Flow α) (k : α → State → Flow β) : Flow β :=
  match x with
  | .done a s => k a s
  | .raise e s => .raise e s
  | .stuck f => .stuck f

/-- The end of an engine step: a raise takes the fault (R98, R166). -/
def endStep (x : Flow Unit) : Answer :=
  match x with
  | .done _ s => .next s
  | .raise e s => .next (takeFault e s)
  | .stuck f => .fault f

/-! Memory accesses of the machine: `MemRead(addr, 1)` and `MemWrite(addr, 1, v)` of R11. -/

/-- `MemRead(addr, 1)`; its precondition is `0 <= addr < N` (R11). -/
def memRead (a : Int) (s : State) : Flow Word :=
  if 0 ≤ a ∧ a < s.memSize then .done (s.mem.read a.toNat) s else .stuck (.addressOutsideMemory a)

/-- `MemWrite(addr, 1, v)`; its precondition is `0 <= addr < N` (R11). -/
def memWrite (a : Int) (v : Word) (s : State) : Flow Unit :=
  if 0 ≤ a ∧ a < s.memSize then .done () { s with mem := s.mem.write a.toNat v }
  else .stuck (.addressOutsideMemory a)

/-! The primitives of the Machine State. -/

/-- `PushStack(value)` (R90): the check, the write at sp, the increment, the trace. The check is `sp >= N - 1` (D8, log 15). -/
def pushStack (v : Word) (s : State) : Flow Unit :=
  if (s.memSize : Int) - 1 ≤ s.sp then .raise .stackOverflow s
  else (memWrite s.sp v s).andThen fun _ t =>
    .done () (State.trace { t with sp := t.sp + 1 } (.debugPush t.sp.toNat v))

/-- `PopStack()` (R91): the decrement, the check, the read at the new sp, the trace. A failed pop keeps the decrement. -/
def popStack (s : State) : Flow Word :=
  if s.sp - 1 < s.sb then .raise .stackUnderflow { s with sp := s.sp - 1 }
  else (memRead (s.sp - 1) { s with sp := s.sp - 1 }).andThen fun v t =>
    .done v (t.trace (.debugPop t.sp.toNat v))

/-- `MovePC(address)` (R92): the address is an unsigned number. -/
def movePC (address : Nat) (s : State) : Flow Unit :=
  if s.memSize ≤ address then .raise .programCounterOverflow s
  else .done () (State.trace { s with pc := address } (.debugPcMove address))

/-- `AdvancePC()` (R93): the check is `pc >= N - 1` (D8, log 15), written without subtraction. -/
def advancePC (s : State) : Flow Unit :=
  if s.memSize ≤ s.pc + 1 then .raise .programCounterOverflow s
  else .done () (State.trace { s with pc := s.pc + 1 } (.debugPcAdvance (s.pc + 1)))

/-- `Fetch()` (R94): no event, no change of state. -/
def fetch (s : State) : Flow Word :=
  if s.memSize ≤ s.pc then .raise .fetchAddressOutOfRange s else memRead s.pc s

/-- STOP's `rs <- STOPPED` (40_execution_engine.md R102) ends the run: START replies ok (45_host_commands.md R147). No event. -/
def stopRun (s : State) : State := State.reply { s with rs := .stopped } .ok

/-! The execution template (R97), by the number of operands popped: pops, operation, auto-advance, in that order. -/

/-- No operand is popped. -/
def template0 (autoAdvance : Bool) (op : State → Flow Unit) (s : State) : Flow Unit :=
  (op s).andThen fun _ t => if autoAdvance then advancePC t else .done () t

/-- One operand: the word on top of the stack is `operand1`. -/
def template1 (autoAdvance : Bool) (op : Word → State → Flow Unit) (s : State) : Flow Unit :=
  (popStack s).andThen fun operand1 t => template0 autoAdvance (op operand1) t

/-- Two operands: the first pop is `operand1`, the second `operand2`. -/
def template2 (autoAdvance : Bool) (op : Word → Word → State → Flow Unit) (s : State) : Flow Unit :=
  (popStack s).andThen fun operand1 t => template1 autoAdvance (op operand1) t

end Sys2Proof.Machine
end

