-- ==== Sys2Proof/Machine/Operands.lean ====
section
/-!
DEFINITION. The operand forms: the argument field as a data word and as an address, a popped word as an address and as a number,
and the decimal text of a word.
-/

namespace Sys2Proof.Machine

/-- `zext_32(arg)`: the argument as a data word, never sign-extended (30_encoding.md R72; 44_stack_io_print_push.md R131). -/
def argWord (arg : Arg) : Word := arg.zeroExtend 32

/-- The argument as an absolute word address (R72; 43_control_call_ret.md R120). -/
def argAddress (arg : Arg) : Nat := arg.toNat

/-- A popped word as an address: an unsigned number (43_control_call_ret.md R121; the spec's decision D6, log 13). -/
def wordAddress (w : Word) : Nat := w.toNat

/-- The product MULT pushes: the low 32 bits of the exact product of the unsigned operands (42_arithmetic_mult.md R116; the spec's
decision D4, log 11). -/
def product (operand1 operand2 : Word) : Word :=
  BitVec.ofNat 32 (operand1.toNat * operand2.toNat)

/-- The character of a digit 0 to 9. -/
def digitChar (d : Nat) : Char := Char.ofNat (48 + d)

/-- The decimal digits of `n`, without leading zeros, for an `n` of at most `fuel` digits. -/
def digits : Nat → Nat → List Char
  | 0, _ => []
  | fuel + 1, n => if n < 10 then [digitChar n] else digits fuel (n / 10) ++ [digitChar (n % 10)]

/-- The text of an integer below 10^10 in magnitude, so of every 32-bit number: a minus sign before the digits of a negative one,
nothing else around them. -/
def decimalText (v : Int) : List Char :=
  if v < 0 then '-' :: digits 10 v.natAbs else digits 10 v.natAbs

/-- The number PRINT renders (44_stack_io_print_push.md R132): the word read as signed, by `PRINT_SIGNED` (D5, log 12). -/
def printedNumber (w : Word) : Int :=
  if Config.printSigned then w.toInt else w.toNat

/-- `Dec(w)` (R132). -/
def dec (w : Word) : String := String.ofList (decimalText (printedNumber w))

end Sys2Proof.Machine
end

