-- ==== Sys2Proof/Machine/Arithmetic.lean ====
section
/-!
DEFINITION. MULT (42_arithmetic_mult.md). It ignores the argument (30_encoding.md R78).
-/

namespace Sys2Proof.Machine

/-- MULT (R115): pop operand1, pop operand2, push their product, advance. -/
def execMult (s : State) : Answer :=
  endStep (template2 true (fun operand1 operand2 t => pushStack (product operand1 operand2) t) s)

end Sys2Proof.Machine
end

