-- ==== Sys2Proof/Machine/Control.lean ====
section
/-!
DEFINITION. CALL and RET (43_control_call_ret.md). RET ignores the argument (30_encoding.md R78).
-/

namespace Sys2Proof.Machine

/-- CALL (R120): no operand, move the pc to the argument; no return address is pushed (R122). -/
def execCall (arg : Arg) (s : State) : Answer :=
  endStep (template0 false (movePC (argAddress arg)) s)

/-- RET (R121): pop operand1, move the pc to it. -/
def execRet (s : State) : Answer :=
  endStep (template1 false (fun operand1 t => movePC (wordAddress operand1) t) s)

end Sys2Proof.Machine
end

