-- ==== Sys2Proof/Machine/Flags.lean ====
section
/-!
DEFINITION. Flag computations: there are none. The hardware has no flags or condition codes, no instruction sets or tests a carry,
zero, sign or overflow indication, and MULT records nothing about overflow (10_state.md R30; 42_arithmetic_mult.md R115, R116).
-/
end

