-- ==== Sys2Proof/Machine/StackIo.lean ====
section
/-!
DEFINITION. PRINT and PUSH (44_stack_io_print_push.md). PRINT ignores the argument (30_encoding.md R78).
-/

namespace Sys2Proof.Machine

/-- PRINT (R130): pop operand1, emit its decimal text whether or not verbose (R133), advance. -/
def execPrint (s : State) : Answer :=
  endStep (template1 true (fun operand1 t => .done () (t.emit (.output (dec operand1)))) s)

/-- PUSH (R131): push the zero-extended argument, advance. -/
def execPush (arg : Arg) (s : State) : Answer :=
  endStep (template0 true (pushStack (argWord arg)) s)

end Sys2Proof.Machine
end

