-- ==== Sys2Proof/Machine/System.lean ====
section
/-!
DEFINITION. NOP and STOP (41_system_nop_stop.md). Both ignore the argument (30_encoding.md R78).
-/

namespace Sys2Proof.Machine

/-- NOP (R110): no operand, no operation, advance. -/
def execNop (s : State) : Answer :=
  endStep (template0 true (fun t => .done () t) s)

/-- STOP (R111): no operand, `rs <- STOPPED`, no advance; it cannot fail. -/
def execStop (s : State) : Answer :=
  endStep (template0 false (fun t => .done () (stopRun t)) s)

end Sys2Proof.Machine
end

