-- ==== Sys2Proof/Machine/Dispatch.lean ====
section
/-!
DEFINITION. The handler dispatch (40_execution_engine.md R96): one arm per instruction.
-/

namespace Sys2Proof.Machine

def exec (i : Instr) (s : State) : Host.Outcome State Fault Refusal :=
  match i with
  | .nop _ => Sys2Proof.Machine.execNop s
  | .mult _ => Sys2Proof.Machine.execMult s
  | .call arg => Sys2Proof.Machine.execCall arg s
  | .ret _ => Sys2Proof.Machine.execRet s
  | .stop _ => Sys2Proof.Machine.execStop s
  | .print _ => Sys2Proof.Machine.execPrint s
  | .push arg => Sys2Proof.Machine.execPush arg s

end Sys2Proof.Machine
end

