-- ==== Sys2Proof/Machine/Engine.lean ====
section
/-!
DEFINITION. One step of the engine (40_execution_engine.md R98), what the machine is when neither agent has a move, and how a word
is placed to be the next one fetched.
-/

namespace Sys2Proof.Machine

/-- The step of R98: fetch, decode, look up, run the template. A failed fetch or lookup takes its fault with nothing changed. -/
def engineStep (s : State) : Answer :=
  match fetch s with
  | .done w t =>
    match decodeWord w with
    | .instr i => exec i t
    | .invalid _ => .next (takeFault .invalidInstruction t)
  | .raise e t => .next (takeFault e t)
  | .stuck f => .fault f

/-- Why no step is enabled when the host has nothing to present (R101, R190; log 8). -/
def idleReason (s : State) : Fault :=
  match s.fault with
  | some e => .runFaulted e
  | none =>
    match s.rs with
    | .stopped => .runCompleted
    | .initializing => .waitingForHost
    | .running => .waitingForHost

/-- INITIALIZING -> RUNNING (40_execution_engine.md R102): the stack pointer snaps to the stack bottom. No event. -/
def beginRun (s : State) : State := { s with sp := s.sb, rs := .running }

/-- `s` with the word `w` where the engine fetches next and a run in progress, so that the very next step executes it: the word is
MEM_INIT content at the pc, and where no run is in progress one is begun as START begins it (log 23). -/
def placeFetchWord (s : State) (w : Word) : State :=
  let pc := if s.pc < s.memSize then s.pc else 0
  let t := if s.enabled then s else { beginRun s with fault := none }
  { t with mem := s.mem.write pc w, pc := pc }

end Sys2Proof.Machine
end

