-- ==== Sys2Proof/WellFormed.lean ====
section
/-!
DEFINITION. Checks on syntax. A term of Instr needs none to be legal: its one field has exactly the 24 bits of the encoding, and
every value of it is a legal instruction (30_encoding.md R76, R78). What can be ill-formed is a host command, and what can be
non-canonical is an instruction's unused argument.
-/

namespace Sys2Proof

/-- The canonical encoding of R78: an instruction that does not use its argument carries 0. Non-canonical ones are legal and behave
the same. -/
def Instr.canonical : Instr → Bool
  | .nop a => a == 0#24
  | .mult a => a == 0#24
  | .call _ => true
  | .ret a => a == 0#24
  | .stop a => a == 0#24
  | .print a => a == 0#24
  | .push _ => true

/-- A command the host can present: CONSTRUCT needs a size in 1 .. 2^31 - 1 (45_host_commands.md R142); the operands of the others
are legal at every value of their types (R140, R145). -/
def Machine.Command.wf : Machine.Command → Bool
  | .construct n _ => decide (Config.minMemSize ≤ n ∧ n ≤ Config.maxMemSize)
  | .setAddress _ => true
  | .insert _ _ => true
  | .setVerbose _ => true
  | .start => true

end Sys2Proof
end

