-- ==== Sys2Proof/Machine/HostCommands.lean ====
section
/-!
DEFINITION. The host's commands (45_host_commands.md): each is one transition of the state with a reply.
-/

namespace Sys2Proof.Machine

/-- The end of a host command: ok, or the error as the reply; the latch is not set (R141; the spec's decision D10, log 25). -/
def endCommand (x : Flow Unit) : Answer :=
  match x with
  | .done _ s => .next (s.reply .ok)
  | .raise e s => .next (s.reply (.error e))
  | .stuck f => .fault f

/-- The machine after `CONSTRUCT(N, MEM_INIT)` (R142): every item of the spec's state is set anew. The host's own script and record
of replies are not the machine's (log 6). -/
def constructed (n : Nat) (memInit : List (Nat × Word)) (s : State) : State where
  mem := Memory.ofCells n memInit
  memSize := n
  pc := 0
  sp := 0
  sb := 0
  rs := .initializing
  verbose := Config.verboseAtReset
  fault := none
  out := []
  script := s.script
  replies := s.replies

/-- `CONSTRUCT(N, MEM_INIT)` (R142): it cannot fail; a size outside 1 .. 2^31 - 1 is refused. -/
def doConstruct (n : Nat) (memInit : List (Nat × Word)) (s : State) : Answer :=
  if (Command.construct n memInit).wf then .next ((constructed n memInit s).reply .ok)
  else .refused .constructSize

/-- `SET_ADDRESS(a)` (R143): MovePC issued by the host, in INITIALIZING only. -/
def doSetAddress (a : Word) (s : State) : Answer :=
  if s.rs = .initializing then endCommand (movePC (wordAddress a) s)
  else .refused .setAddressAfterStart

/-- The body of `INSERT(ins, x)` (R144): the state check, the address check, the write, the increment without AdvancePC's check,
the high-water mark, the trace. -/
def insertInstruction (ins : Opcode) (x : Word) (s : State) : Flow Unit :=
  if s.rs ≠ .initializing then .raise .invalidInsertState s
  else if s.memSize ≤ s.pc then .raise .insertAddressOutOfRange s
  else (memWrite s.pc (encode ins x.toNat) s).andThen fun _ t =>
    .done () (State.trace { t with pc := t.pc + 1, sb := max t.sb (t.pc + 1) }
      (.debugInsert t.pc (encode ins x.toNat)))

/-- `INSERT(ins, x)` (R144, R145). -/
def doInsert (ins : Opcode) (x : Word) (s : State) : Answer :=
  endCommand (insertInstruction ins x s)

/-- `SET_VERBOSE(b)` (R146), in INITIALIZING only. -/
def doSetVerbose (b : Bool) (s : State) : Answer :=
  if s.rs = .initializing then .next (State.reply { s with verbose := b } .ok)
  else .refused .setVerboseAfterStart

/-- `START` (R147, R148): begin the run, whose end brings the reply (`stopRun`, `takeFault`); on a stopped machine ok at once;
refused with the latch set. -/
def doStart (s : State) : Answer :=
  if s.fault ≠ none then .refused .startAfterFault
  else
    match s.rs with
    | .initializing => .next (beginRun s)
    | .running => .refused .commandDuringRun
    | .stopped => .next (s.reply .ok)

/-- One command presented by the host (R140). While a run is in progress it can present nothing. -/
def performCommand (c : Command) (s : State) : Answer :=
  if s.enabled then .refused .commandDuringRun
  else
    match c with
    | .construct n memInit => doConstruct n memInit s
    | .setAddress a => doSetAddress a s
    | .insert ins x => doInsert ins x s
    | .setVerbose b => doSetVerbose b s
    | .start => doStart s

/-- The host's turn: it presents the next command of its script; with none left no step is enabled. -/
def hostStep (s : State) : Answer :=
  match s.script with
  | [] => .fault (idleReason s)
  | c :: cs => performCommand c { s with script := cs }

/-- The replies given between two states are one error. -/
def errorReplied (before after : State) : Bool :=
  match after.replies.drop before.replies.length with
  | [.error _] => true
  | _ => false

/-- A construction sequence issued by one piece of host software: it stops at the first error reply (R141). -/
def construction : List Command → State → Answer
  | [], s => .next s
  | c :: cs, s =>
    match performCommand c s with
    | .next t => if errorReplied s t then .next t else construction cs t
    | .fault f => .fault f
    | .refused r => .refused r

end Sys2Proof.Machine
end

