-- ==== Sys2Proof/Machine/Step.lean ====
section
/-!
DEFINITION. One step of the whole machine: the engine's while a run is in progress, the host's otherwise (45_host_commands.md R140,
R152; 40_execution_engine.md R98, R100).
-/

namespace Sys2Proof.Machine

/-- One transition of the machine and its host. -/
def step (s : State) : Host.Outcome State Fault Refusal :=
  if s.enabled then engineStep s else hostStep s

/-- `s` with the instruction word `w` placed where `step` fetches next, and a run in progress (log 23). -/
def State.withFetchWord (s : State) (nbits w : Nat) : State :=
  placeFetchWord s (tableWord nbits w)

end Sys2Proof.Machine
end

