-- ==== Sys2Proof/Safety.lean ====
section
/-!
DEFINITION. What claims speak of: the invariant of reachable states (10_state.md R33), how a run ends (40_execution_engine.md R101),
the faults an instruction can raise (60_exceptions.md R162), the output of a run (44_stack_io_print_push.md R133), and equality of
states but for the trace (45_host_commands.md R146).
-/

namespace Sys2Proof.Machine

/-- The stack region's bounds while no fault is recorded (R33 item 4): at least the stack bottom, and at most the last index unless
the program fills the memory. -/
def State.stackInBounds (s : State) : Prop :=
  (s.sb : Int) ≤ s.sp ∧ (s.sp + 1 ≤ s.memSize ∨ s.sb = s.memSize ∧ s.sp = s.memSize)

/-- The invariant of the states the machine reaches (10_state.md R33 items 1 to 5, with the ranges of R7, R21 and R27). -/
structure State.Inv (s : State) : Prop where
  /-- `1 <= N <= 2^31 - 1` (R7). -/
  size : Config.minMemSize ≤ s.memSize ∧ s.memSize ≤ Config.maxMemSize
  /-- The memory is in canonical form. -/
  memWf : s.mem.wf = true
  /-- Only words below N are listed (R21). -/
  memWithin : s.mem.within s.memSize = true
  /-- `0 <= sb <= N` (item 1). -/
  sbBound : s.sb ≤ s.memSize
  /-- `0 <= pc <= N` (item 2). -/
  pcBound : s.pc ≤ s.memSize
  /-- In INITIALIZING sp is 0 (item 3) and no fault is recorded. -/
  initializing : s.rs = .initializing → s.sp = 0 ∧ s.fault = none
  /-- Item 4. -/
  noFault : s.rs ≠ .initializing → s.fault = none → s.stackInBounds
  /-- Item 5, StackUnderflow: one below the stack bottom. -/
  underflow : s.fault = some .stackUnderflow → s.sp = (s.sb : Int) - 1
  /-- Item 5, the other faults. -/
  otherFault : ∀ e, s.fault = some e → e ≠ .stackUnderflow → s.stackInBounds
  /-- A fault leaves the machine RUNNING (R166). -/
  faultRunning : s.fault ≠ none → s.rs = .running
  /-- The errors of INSERT are never latched (R27). -/
  notInsertError : s.fault ≠ some .invalidInsertState ∧ s.fault ≠ some .insertAddressOutOfRange
  /-- Item 2: once a run is over, the pc is at N only if the first fetch failed there. -/
  pcAfterRun : (s.rs = .stopped ∨ s.fault ≠ none) → s.fault ≠ some .fetchAddressOutOfRange → s.pc < s.memSize

/-- The normal end of a run (R101, fate 1). -/
def State.completed (s : State) : Prop := s.rs = .stopped ∧ s.fault = none

/-- The faulted end of a run (R101, fate 2). -/
def State.faulted (s : State) : Prop := s.fault ≠ none

/-- The faults an instruction can raise once it is known (60_exceptions.md R162). -/
def possibleFaults : Instr → List ErrorName
  | .nop _ => [.programCounterOverflow]
  | .mult _ => [.stackUnderflow, .programCounterOverflow]
  | .call _ => [.programCounterOverflow]
  | .ret _ => [.stackUnderflow, .programCounterOverflow]
  | .stop _ => []
  | .print _ => [.stackUnderflow, .programCounterOverflow]
  | .push _ => [.stackOverflow, .programCounterOverflow]

/-- The event is an Output event. -/
def Event.isOutput : Event → Bool
  | .output _ => true
  | .debugInsert _ _ => false
  | .debugPcMove _ => false
  | .debugPcAdvance _ => false
  | .debugPush _ _ => false
  | .debugPop _ _ => false

/-- The text of an Output event. -/
def Event.text : Event → Option String
  | .output text => some text
  | .debugInsert _ _ => none
  | .debugPcMove _ => none
  | .debugPcAdvance _ => none
  | .debugPush _ _ => none
  | .debugPop _ _ => none

/-- The output of a run: the texts of the Output events, in order (R133). -/
def outputTexts (events : List Event) : List String := events.filterMap Event.text

/-- The number a digit character stands for. -/
def digitValue (c : Char) : Nat := c.toNat - 48

/-- The base-ten value of a sequence of digits (R132). -/
def decimalValue (cs : List Char) : Nat := cs.foldl (fun n c => 10 * n + digitValue c) 0

/-- `digits(n)` of R132 for `n > 0`: the shortest sequence of the characters 0 to 9 with that value: no leading zero. -/
def isDecimalOf (cs : List Char) (n : Nat) : Prop :=
  decimalValue cs = n ∧ (∀ c ∈ cs, '0' ≤ c ∧ c ≤ '9') ∧ cs.head? ≠ some '0'

/-- The state with the verbose flag cleared and the debug events taken out of the stream: what R146 says verbose cannot affect. -/
def State.untraced (s : State) : State :=
  { s with verbose := false, out := s.out.filter Event.isOutput }

/-- The same of an answer. -/
def untracedAnswer : Answer → Answer
  | .next s => .next s.untraced
  | .fault f => .fault f
  | .refused r => .refused r

end Sys2Proof.Machine
end

