-- ==== Sys2Proof/Certificates/Slice0/Obligations.lean ====
section
/-!
DEFINITION. The statements for the provers. A raise inside an engine step is written `takeFault e u`: the state `u` the raise left,
with the latch set and the reply to START given. That the latch is how a fault is held is the spec's own decision D9
(92_eei_decisions.md; log 7), and the payloads of debug events are its decision D14 (log 17): a statement that rests on either has
basis 'derived'.
-/

open Sys2Proof Sys2Proof.Machine

/-! Encoding. -/

/-- R74: the opcode byte is `(word >> 24) & 0xFF`, the argument `word & 0xFFFFFF`, for every word. -/
def Obligations.DecodeSplitsEveryWord : Prop :=
  ∀ w : Word, (decode w).1.toNat = w.toNat >>> 24 &&& 0xFF ∧ (decode w).2.toNat = w.toNat &&& 0xFFFFFF

/-- R75: the seven bytes of the table, none for 3 and for 8 to 255, and for none the engine's step is the last one and no normal end. -/
def Obligations.LookupKnowsTheClosedTable : Prop :=
  (∀ (op : Opcode) (b : OpByte), lookup b = some op ↔
    (b.toNat, op) ∈ [(0, Opcode.nop), (1, .mult), (2, .call), (4, .ret), (5, .stop), (6, .print), (7, .push)]) ∧
  (∀ b : OpByte, lookup b = none ↔ b.toNat = 3 ∨ 8 ≤ b.toNat) ∧
  ∀ s : State, s.enabled → s.pc < s.memSize → lookup (decode (s.mem.read s.pc)).1 = none →
    ∃ t, step s = .next t ∧ ¬ t.enabled ∧ ¬ t.completed

/-- R76: a word is an instruction of an opcode exactly when its bits under the mask 0xFF000000 are the opcode's match. -/
def Obligations.MatchUnderMaskSelectsInstruction : Prop :=
  ∀ (w : Word) (op : Opcode), (∃ a, decodeWord w = .instr (op.instr a)) ↔
    w &&& 0xFF000000#32 =
      match op with
      | .nop => 0x00000000#32
      | .mult => 0x01000000#32
      | .call => 0x02000000#32
      | .ret => 0x04000000#32
      | .stop => 0x05000000#32
      | .print => 0x06000000#32
      | .push => 0x07000000#32

/-- R77: the illegal words are those whose opcode byte is 3 or at least 8; the rejection names the byte. -/
def Obligations.IllegalWordsAreRejected : Prop :=
  ∀ (w : Word) (b : OpByte), decodeWord w = .invalid b ↔
    b = (decode w).1 ∧ (w.toNat / 2 ^ 24 = 3 ∨ 8 ≤ w.toNat / 2 ^ 24)

/-- R79, R73: encoding then decoding gives the instruction back at every argument, decoding then encoding gives the word back, and
an argument of any integer value comes back truncated to 24 bits (for a negative one the spec's decision D20, log 22). -/
def Obligations.DecodeAndEncodeAgree : Prop :=
  (∀ i : Instr, decodeWord (encodeInstr i) = .instr i) ∧
  (∀ (w : Word) (i : Instr), decodeWord w = .instr i → encodeInstr i = w) ∧
  ∀ (op : Opcode) (x : Int), decode (encode op x) = (op.code, BitVec.ofInt 24 x) ∧
    (decode (encode op x)).2.toNat = x % 2 ^ 24

/-- Words of 95_test_vectors.md section 2.1: one for each instruction, and two illegal ones. -/
def Obligations.SampleWordsDecode : Prop :=
  decodeWord 0x00ABCDEF#32 = .instr (.nop 0xABCDEF#24) ∧
  decodeWord 0x01000000#32 = .instr (.mult 0#24) ∧
  decodeWord 0x02000032#32 = .instr (.call 50#24) ∧
  decodeWord 0x04000000#32 = .instr (.ret 0#24) ∧
  decodeWord 0x05123456#32 = .instr (.stop 0x123456#24) ∧
  decodeWord 0x06000000#32 = .instr (.print 0#24) ∧
  decodeWord 0x070003F1#32 = .instr (.push 1009#24) ∧
  decodeWord 0x03000000#32 = .invalid 3#8 ∧
  decodeWord 0x08000001#32 = .invalid 8#8

/-- R62: a word that PUSH can push is a NOP when it is executed. -/
def Obligations.PushedWordExecutesAsNop : Prop :=
  ∀ arg : Arg, decodeWord (argWord arg) = .instr (.nop arg) ∧ (argWord arg).toNat = arg.toNat

/-- R78 (the spec's decision D18, log 21): an instruction other than CALL and PUSH behaves as the same opcode with argument 0. -/
def Obligations.UnusedArgumentIsIgnored : Prop :=
  ∀ (i : Instr) (s : State), i.opcode ≠ .call → i.opcode ≠ .push → exec i s = exec (i.opcode.instr 0#24) s

/-! The step. -/

/-- R98: when a run is in progress and the word at the pc is an instruction, the step is exactly that instruction; nothing is added
around it. -/
def Obligations.StepRunsDecodedInstruction : Prop :=
  ∀ (s : State) (i : Instr), s.enabled → s.pc < s.memSize → decodeWord (s.mem.read s.pc) = .instr i → step s = exec i s

/-- R94, R95, R164: a fetch at N or above, then an illegal word, take their faults with nothing else changed. The fetch fault is the
spec's decision D7 (log 14), the latch D9 (log 7). -/
def Obligations.StepTakesFetchAndDecodeFaults : Prop :=
  ∀ s : State, s.enabled →
    (s.memSize ≤ s.pc → step s = .next { s with fault := some .fetchAddressOutOfRange,
                                                replies := s.replies ++ [.error .fetchAddressOutOfRange] }) ∧
    (s.pc < s.memSize → (∃ b, decodeWord (s.mem.read s.pc) = .invalid b) →
      step s = .next { s with fault := some .invalidInstruction, replies := s.replies ++ [.error .invalidInstruction] })

/-- R101, R166, R190: outside a run, with a host that has nothing to present, no step is enabled; the reason is named (the model's
choice, log 8). -/
def Obligations.NoStepOutsideARunWithoutHost : Prop :=
  ∀ s : State, s.script = [] →
    (∀ e, s.fault = some e → step s = .fault (.runFaulted e)) ∧
    (s.fault = none → s.rs = .stopped → step s = .fault .runCompleted) ∧
    (s.fault = none → s.rs = .initializing → step s = .fault .waitingForHost)

/-- R140 (D16; the script is the model's, log 5): outside a run the host's next command is performed; in a run none can be. -/
def Obligations.HostPresentsOneCommandOutsideRuns : Prop :=
  (∀ (s : State) (c : Command) (cs : List Command), ¬ s.enabled → s.script = c :: cs →
    step s = performCommand c { s with script := cs }) ∧
  ∀ (s : State) (c : Command), s.enabled → performCommand c s = .refused .commandDuringRun

/-- How a word comes to be the next one executed (the model's `withFetchWord`, log 23). -/
def Obligations.PlacedWordIsExecutedNext : Prop :=
  ∀ (s : State) (w : Nat), s.Inv →
    step (s.withFetchWord 32 w) =
      match decodeTableWord 32 w with
      | some i => exec i (s.withFetchWord 32 w)
      | none => .next (takeFault .invalidInstruction (s.withFetchWord 32 w))

/-! The instructions: where each completes, and the whole next state. -/

/-- R110: NOP below the last word advances, and nothing else changes but the trace (D14). -/
def Obligations.NopAdvances : Prop :=
  ∀ (arg : Arg) (s : State), s.pc + 1 < s.memSize →
    exec (.nop arg) s = .next { s with pc := s.pc + 1, out := s.out ++ s.traced (.debugPcAdvance (s.pc + 1)) }

/-- R111: every word with opcode 5 is STOP; it always completes, sets the run state, changes nothing else of the machine, emits no
event, and no further engine step is enabled. -/
def Obligations.StopHalts : Prop :=
  (∀ w : Word, w &&& 0xFF000000#32 = 0x05000000#32 → ∃ arg, decodeWord w = .instr (.stop arg)) ∧
  ∀ (arg : Arg) (s : State), ∃ t, exec (.stop arg) s = .next t ∧ t.rs = .stopped ∧ t.pc = s.pc ∧ t.sp = s.sp ∧
    t.sb = s.sb ∧ t.mem = s.mem ∧ t.memSize = s.memSize ∧ t.verbose = s.verbose ∧ t.fault = s.fault ∧ t.out = s.out ∧
    ¬ t.enabled

/-- R115, R116: MULT with two words on the stack, below the last word of memory. The product's low 32 bits are the spec's decision D4
(log 11), the trace D14. -/
def Obligations.MultPushesProduct : Prop :=
  ∀ (arg : Arg) (s : State) (operand1 operand2 product : Word),
    (s.sb : Int) + 2 ≤ s.sp → s.sp ≤ s.memSize → s.pc + 1 < s.memSize →
    operand1 = s.mem.read (s.sp - 1).toNat → operand2 = s.mem.read (s.sp - 2).toNat →
    product.toNat = operand1.toNat * operand2.toNat % 2 ^ 32 →
    exec (.mult arg) s = .next { s with
      mem := s.mem.write (s.sp - 2).toNat product
      sp := s.sp - 1
      pc := s.pc + 1
      out := s.out ++ s.traced (.debugPop (s.sp - 1).toNat operand1) ++ s.traced (.debugPop (s.sp - 2).toNat operand2) ++
        s.traced (.debugPush (s.sp - 2).toNat product) ++ s.traced (.debugPcAdvance (s.pc + 1)) }

/-- R120, R122: CALL to an address of the memory moves the pc and touches no stack (trace D14). -/
def Obligations.CallMovesPcToArgument : Prop :=
  ∀ (arg : Arg) (s : State), arg.toNat < s.memSize →
    exec (.call arg) s = .next { s with pc := arg.toNat, out := s.out ++ s.traced (.debugPcMove arg.toNat) }

/-- R121: RET with a word on the stack that, read as an unsigned number (D6, log 13), is an address of the memory (trace D14). -/
def Obligations.RetMovesPcToPoppedWord : Prop :=
  ∀ (arg : Arg) (s : State) (operand1 : Word), (s.sb : Int) < s.sp → s.sp ≤ s.memSize →
    operand1 = s.mem.read (s.sp - 1).toNat → operand1.toNat < s.memSize →
    exec (.ret arg) s = .next { s with
      sp := s.sp - 1
      pc := operand1.toNat
      out := s.out ++ s.traced (.debugPop (s.sp - 1).toNat operand1) ++ s.traced (.debugPcMove operand1.toNat) }

/-- R130, R133: PRINT with a word on the stack, below the last word of memory: the output between the pop and the advance, verbose or
not (text D5, trace D14). -/
def Obligations.PrintEmitsPoppedWord : Prop :=
  ∀ (arg : Arg) (s : State) (operand1 : Word), (s.sb : Int) < s.sp → s.sp ≤ s.memSize → s.pc + 1 < s.memSize →
    operand1 = s.mem.read (s.sp - 1).toNat →
    exec (.print arg) s = .next { s with
      sp := s.sp - 1
      pc := s.pc + 1
      out := s.out ++ s.traced (.debugPop (s.sp - 1).toNat operand1) ++ [.output (dec operand1)] ++
        s.traced (.debugPcAdvance (s.pc + 1)) }

/-- R131: PUSH with room, below the last word of memory: the pushed word is the argument with a zero top byte (trace D14). -/
def Obligations.PushPushesArgument : Prop :=
  ∀ (arg : Arg) (s : State) (v : Word), 0 ≤ s.sp → s.sp + 1 < s.memSize → s.pc + 1 < s.memSize → v.toNat = arg.toNat →
    exec (.push arg) s = .next { s with
      mem := s.mem.write s.sp.toNat v
      sp := s.sp + 1
      pc := s.pc + 1
      out := s.out ++ s.traced (.debugPush s.sp.toNat v) ++ s.traced (.debugPcAdvance (s.pc + 1)) }

/-! Where an instruction traps. -/

/-- R167, R196: the auto-advance of NOP, PRINT, PUSH and MULT in the last word of memory faults after the instruction took its
effect; the pc stays (latch D9, `>=` D8, product D4, text D5, trace D14). -/
def Obligations.AdvanceFaultsInLastWordAfterTheEffect : Prop :=
  ∀ (arg : Arg) (s : State), s.memSize ≤ s.pc + 1 →
    exec (.nop arg) s = .next (takeFault .programCounterOverflow s) ∧
    ((s.sb : Int) < s.sp → s.sp ≤ s.memSize → ∀ operand1, operand1 = s.mem.read (s.sp - 1).toNat →
      exec (.print arg) s = .next (takeFault .programCounterOverflow { s with
        sp := s.sp - 1
        out := s.out ++ s.traced (.debugPop (s.sp - 1).toNat operand1) ++ [.output (dec operand1)] })) ∧
    (0 ≤ s.sp → s.sp + 1 < s.memSize → ∀ v : Word, v.toNat = arg.toNat →
      exec (.push arg) s = .next (takeFault .programCounterOverflow { s with
        mem := s.mem.write s.sp.toNat v
        sp := s.sp + 1
        out := s.out ++ s.traced (.debugPush s.sp.toNat v) })) ∧
    ((s.sb : Int) + 2 ≤ s.sp → s.sp ≤ s.memSize → ∀ operand1 operand2 product : Word,
      operand1 = s.mem.read (s.sp - 1).toNat → operand2 = s.mem.read (s.sp - 2).toNat →
      product.toNat = operand1.toNat * operand2.toNat % 2 ^ 32 →
      exec (.mult arg) s = .next (takeFault .programCounterOverflow { s with
        mem := s.mem.write (s.sp - 2).toNat product
        sp := s.sp - 1
        out := s.out ++ s.traced (.debugPop (s.sp - 1).toNat operand1) ++ s.traced (.debugPop (s.sp - 2).toNat operand2) ++
          s.traced (.debugPush (s.sp - 2).toNat product) }))

/-- R120, R121, R167: a CALL or a RET to N or above faults; RET's pop stands (latch D9, unsigned target D6, trace D14). -/
def Obligations.JumpsOutOfMemoryFault : Prop :=
  ∀ (arg : Arg) (s : State),
    (s.memSize ≤ arg.toNat → exec (.call arg) s = .next (takeFault .programCounterOverflow s)) ∧
    ∀ operand1, (s.sb : Int) < s.sp → s.sp ≤ s.memSize → operand1 = s.mem.read (s.sp - 1).toNat →
      s.memSize ≤ operand1.toNat →
      exec (.ret arg) s = .next (takeFault .programCounterOverflow { s with
        sp := s.sp - 1
        out := s.out ++ s.traced (.debugPop (s.sp - 1).toNat operand1) })

/-- R91, R164, R167: a pop of the empty stack faults wherever the pc is, the decrement stays, and MULT's first pop is not undone by
its second (latch D9, trace D14). -/
def Obligations.PopsOfTheEmptyStackFault : Prop :=
  ∀ (arg : Arg) (s : State),
    (s.sp ≤ s.sb →
      exec (.mult arg) s = .next (takeFault .stackUnderflow { s with sp := s.sp - 1 }) ∧
      exec (.ret arg) s = .next (takeFault .stackUnderflow { s with sp := s.sp - 1 }) ∧
      exec (.print arg) s = .next (takeFault .stackUnderflow { s with sp := s.sp - 1 })) ∧
    (s.sp = (s.sb : Int) + 1 → s.sp ≤ s.memSize →
      exec (.mult arg) s = .next (takeFault .stackUnderflow { s with
        sp := s.sp - 2
        out := s.out ++ s.traced (.debugPop s.sb (s.mem.read s.sb)) }))

/-- R90, R131, R164: a PUSH at the last valid index or above faults wherever the pc is, with nothing changed (latch D9, `>=` D8). -/
def Obligations.PushOnTheFullStackFaults : Prop :=
  ∀ (arg : Arg) (s : State), (s.memSize : Int) - 1 ≤ s.sp →
    exec (.push arg) s = .next { s with fault := some .stackOverflow, replies := s.replies ++ [.error .stackOverflow] }

/-- R162, R117: an instruction latches only the faults the spec lists for it; in particular the push inside MULT never overflows. -/
def Obligations.InstructionsRaiseOnlyTheirFaults : Prop :=
  ∀ (i : Instr) (s t : State) (e : ErrorName), exec i s = .next t → s.fault = none → t.fault = some e →
    e ∈ possibleFaults i

/-- R160 (the numbers are D19, log 24): the latch's code is 0 exactly when no fault is recorded, each fault has the number of the
table, and the code names the fault. -/
def Obligations.FaultCodeNamesTheFault : Prop :=
  (∀ s : State, s.faultCode = 0 ↔ s.fault = none) ∧
  (∀ (s : State) (e : ErrorName), s.fault = some e →
    (s.faultCode, e) ∈ [(1, ErrorName.stackUnderflow), (2, .stackOverflow), (3, .programCounterOverflow),
      (4, .invalidInsertState), (5, .insertAddressOutOfRange), (6, .invalidInstruction), (7, .fetchAddressOutOfRange)]) ∧
  ∀ s t : State, s.faultCode = t.faultCode → s.fault = t.fault

/-! Frames. -/

/-- R36, R103: what NOP, CALL, RET, STOP and PRINT leave unchanged, completing or faulting: all of memory, its size, the stack bottom,
the verbose flag, the host's script; the stack pointer but for the one pop of RET and PRINT; the run state but for STOP; the latch
but for a fault raised (latch D9). -/
def Obligations.FrameOfInstructionsThatStoreNothing : Prop :=
  ∀ (i : Instr) (s t : State), i.opcode ≠ .push → i.opcode ≠ .mult → exec i s = .next t →
    (∀ a, t.mem.read a = s.mem.read a) ∧ t.memSize = s.memSize ∧ t.sb = s.sb ∧ t.verbose = s.verbose ∧
    t.script = s.script ∧
    (t.sp = if i.opcode = .ret ∨ i.opcode = .print then s.sp - 1 else s.sp) ∧
    (t.rs = if i.opcode = .stop then .stopped else s.rs) ∧
    (t.fault = s.fault ∨ ∃ e ∈ possibleFaults i, t.fault = some e ∧ t.pc = s.pc) ∧
    ∃ events, t.out = s.out ++ events

/-- R36, R103, R115, R131: what PUSH and MULT leave unchanged, completing or faulting: every word of memory but the slot they store
to (sp for PUSH, sp - 2 for MULT), the memory size, the stack bottom, the run state, the verbose flag, the host's script; the latch
but for a fault raised. The stack pointer is where the pushes and pops that were made leave it, and a fault of the stack (PUSH on the
full stack, MULT on fewer than two words) stores nothing (latch D9, `>=` D8, sp below the stack bottom D21). -/
def Obligations.FrameOfInstructionsThatStore : Prop :=
  (∀ (arg : Arg) (s t : State), exec (.push arg) s = .next t →
    (∀ a : Nat, (a : Int) ≠ s.sp → t.mem.read a = s.mem.read a) ∧
    ((s.memSize : Int) ≤ s.sp + 1 → t.sp = s.sp ∧ t.mem = s.mem ∧ t.fault = some .stackOverflow) ∧
    (s.sp + 1 < s.memSize → t.sp = s.sp + 1) ∧
    t.memSize = s.memSize ∧ t.sb = s.sb ∧ t.rs = s.rs ∧ t.verbose = s.verbose ∧ t.script = s.script ∧
    (t.fault = s.fault ∨ ∃ e ∈ possibleFaults (.push arg), t.fault = some e ∧ t.pc = s.pc) ∧
    ∃ events, t.out = s.out ++ events) ∧
  ∀ (arg : Arg) (s t : State), exec (.mult arg) s = .next t →
    (∀ a : Nat, (a : Int) ≠ s.sp - 2 → t.mem.read a = s.mem.read a) ∧
    (s.sp ≤ s.sb → t.sp = s.sp - 1 ∧ t.mem = s.mem ∧ t.fault = some .stackUnderflow) ∧
    (s.sp = (s.sb : Int) + 1 → t.sp = s.sp - 2 ∧ t.mem = s.mem ∧ t.fault = some .stackUnderflow) ∧
    ((s.sb : Int) + 2 ≤ s.sp → t.sp = s.sp - 1) ∧
    t.memSize = s.memSize ∧ t.sb = s.sb ∧ t.rs = s.rs ∧ t.verbose = s.verbose ∧ t.script = s.script ∧
    (t.fault = s.fault ∨ ∃ e ∈ possibleFaults (.mult arg), t.fault = some e ∧ t.pc = s.pc) ∧
    ∃ events, t.out = s.out ++ events

/-- R22, R123: only CALL and RET set the pc to anything but the next address; STOP keeps it. -/
def Obligations.OnlyCallAndRetJump : Prop :=
  ∀ (i : Instr) (s t : State), exec i s = .next t → s.fault = none → t.fault = none →
    i.opcode ≠ .call → i.opcode ≠ .ret → t.pc = if i.opcode = .stop then s.pc else s.pc + 1

/-- R133, R99: exactly a PRINT whose pop succeeds adds an output, the text of the popped word, whether or not verbose and whether or
not its advance then faults; no instruction withdraws one (text D5). -/
def Obligations.PrintIsTheOnlyOutput : Prop :=
  ∀ (i : Instr) (s t : State), exec i s = .next t →
    outputTexts t.out = outputTexts s.out ++
      if i.opcode = .print ∧ (s.sb : Int) < s.sp then [dec (s.mem.read (s.sp - 1).toNat)] else []

/-- R99: with verbose false the stream gains nothing but such an output. -/
def Obligations.QuietInstructionsEmitNoTrace : Prop :=
  ∀ (i : Instr) (s t : State), exec i s = .next t → s.verbose = false →
    t.out = s.out ++ (outputTexts (t.out.drop s.out.length)).map Event.output

/-! Operations. -/

/-- R97: the template performs the pops, the operation and the advance in that order, and a raise ends it. -/
def Obligations.TemplateKeepsItsOrder : Prop :=
  (∀ (adv : Bool) (op : State → Flow Unit) (s t : State),
    (op s = .done () t → template0 adv op s = if adv then advancePC t else .done () t) ∧
    ∀ e, op s = .raise e t → template0 adv op s = .raise e t) ∧
  (∀ (adv : Bool) (op : Word → State → Flow Unit) (s t : State),
    (∀ operand1, popStack s = .done operand1 t → template1 adv op s = template0 adv (op operand1) t) ∧
    ∀ e, popStack s = .raise e t → template1 adv op s = .raise e t) ∧
  ∀ (adv : Bool) (op : Word → Word → State → Flow Unit) (s t : State),
    (∀ operand1, popStack s = .done operand1 t →
      (∀ operand2 u, popStack t = .done operand2 u → template2 adv op s = template0 adv (op operand1 operand2) u) ∧
      ∀ e u, popStack t = .raise e u → template2 adv op s = .raise e u) ∧
    ∀ e, popStack s = .raise e t → template2 adv op s = .raise e t

/-- R91: pushing a word and then popping gives it back, provided no boundary is crossed; the slot keeps the word and no other word
changes. -/
def Obligations.PushThenPopGivesTheWordBack : Prop :=
  ∀ (s : State) (v : Word), s.mem.wf = true → (s.sb : Int) ≤ s.sp → s.sp + 1 < s.memSize →
    ∃ t u, pushStack v s = .done () t ∧ popStack t = .done v u ∧ u.sp = s.sp ∧ u.mem.read s.sp.toNat = v ∧
      ∀ a, a ≠ s.sp.toNat → u.mem.read a = s.mem.read a

/-- R132: the text of a word: "0" for zero, otherwise the shortest decimal digits of its magnitude, after a minus sign when it is
negative as a signed number (D5, log 12). -/
def Obligations.DecimalTextIsShortestSigned : Prop :=
  ∀ w : Word,
    (w.toInt = 0 → dec w = "0") ∧
    (0 < w.toInt → ∃ cs, dec w = String.ofList cs ∧ isDecimalOf cs w.toInt.toNat) ∧
    (w.toInt < 0 → ∃ cs, dec w = String.ofList ('-' :: cs) ∧ isDecimalOf cs (-w.toInt).toNat)

/-! The host's commands. -/

/-- R142, R34: CONSTRUCT with a legal size, outside a run: every item of the state is set anew and memory holds MEM_INIT (the values
of verbose, fault and out are the spec's decisions D13, D9, D15; the script and the replies are the model's, log 5, log 6). MEM_INIT is
open in the spec (D2): how `memInit` lists it, the first cell of an address counting and an address in no cell holding zero, is the
model's choice (log 2). Another size is refused (D1). -/
def Obligations.ConstructSetsResetValues : Prop :=
  ∀ (s : State) (n : Nat) (memInit : List (Nat × Word)), ¬ s.enabled →
    (1 ≤ n ∧ n ≤ 2 ^ 31 - 1 →
      ∃ t, performCommand (.construct n memInit) s = .next t ∧ t.memSize = n ∧
        (∀ a, a < n → t.mem.read a = (memInit.lookup a).getD 0#32) ∧ t.mem.wf = true ∧ t.mem.within n = true ∧
        t.pc = 0 ∧ t.sp = 0 ∧ t.sb = 0 ∧ t.rs = .initializing ∧ t.verbose = false ∧ t.fault = none ∧ t.out = [] ∧
        t.script = s.script ∧ t.replies = s.replies ++ [.ok]) ∧
    (¬ (1 ≤ n ∧ n ≤ 2 ^ 31 - 1) → performCommand (.construct n memInit) s = .refused .constructSize)

/-- R143: SET_ADDRESS in INITIALIZING moves the pc or replies the error with nothing changed; elsewhere it is refused (D11; operand
D24). -/
def Obligations.SetAddressMovesPcOrReplies : Prop :=
  ∀ (s : State) (a : Word), ¬ s.enabled →
    (s.rs = .initializing → a.toNat < s.memSize → performCommand (.setAddress a) s = .next { s with
      pc := a.toNat
      out := s.out ++ s.traced (.debugPcMove a.toNat)
      replies := s.replies ++ [.ok] }) ∧
    (s.rs = .initializing → s.memSize ≤ a.toNat → performCommand (.setAddress a) s =
      .next { s with replies := s.replies ++ [.error .programCounterOverflow] }) ∧
    (s.rs ≠ .initializing → performCommand (.setAddress a) s = .refused .setAddressAfterStart)

/-- R144, R145: INSERT in INITIALIZING below N writes the encoded word at the pc, steps the pc without AdvancePC's check and raises
the stack bottom; the errors are tested state first and leave everything unchanged (operand D20, trace D14, replies D10). -/
def Obligations.InsertWritesTheInstruction : Prop :=
  ∀ (s : State) (ins : Opcode) (x word : Word), ¬ s.enabled →
    word.toNat = ins.code.toNat * 2 ^ 24 + x.toNat % 2 ^ 24 →
    (s.rs ≠ .initializing → performCommand (.insert ins x) s =
      .next { s with replies := s.replies ++ [.error .invalidInsertState] }) ∧
    (s.rs = .initializing → s.memSize ≤ s.pc → performCommand (.insert ins x) s =
      .next { s with replies := s.replies ++ [.error .insertAddressOutOfRange] }) ∧
    (s.rs = .initializing → s.pc < s.memSize → performCommand (.insert ins x) s = .next { s with
      mem := s.mem.write s.pc word
      pc := s.pc + 1
      sb := max s.sb (s.pc + 1)
      out := s.out ++ s.traced (.debugInsert s.pc word)
      replies := s.replies ++ [.ok] })

/-- R102: START in INITIALIZING snaps the stack pointer to the stack bottom and sets RUNNING, STOP sets STOPPED; neither emits an
event, and nothing else of the machine changes. -/
def Obligations.RunStateTransitionEffects : Prop :=
  (∀ s : State, s.rs = .initializing → s.fault = none →
    performCommand .start s = .next { s with sp := s.sb, rs := .running }) ∧
  ∀ (arg : Arg) (s : State), ∃ replies, exec (.stop arg) s = .next { s with rs := .stopped, replies := replies }

/-- R146, R148: SET_VERBOSE in INITIALIZING sets the flag and elsewhere is refused (D11, D13); START on a stopped machine changes
nothing and replies ok, and on a faulted one is refused (D9). -/
def Obligations.SetVerboseAndLateStart : Prop :=
  ∀ s : State, ¬ s.enabled →
    (∀ b, s.rs = .initializing →
      performCommand (.setVerbose b) s = .next { s with verbose := b, replies := s.replies ++ [.ok] }) ∧
    (∀ b, s.rs ≠ .initializing → performCommand (.setVerbose b) s = .refused .setVerboseAfterStart) ∧
    (s.rs = .stopped → s.fault = none →
      performCommand .start s = .next { s with replies := s.replies ++ [.ok] }) ∧
    ∀ e, s.fault = some e → performCommand .start s = .refused .startAfterFault

/-- R141 (D10): a command that replies an error is SET_ADDRESS or INSERT, and nothing of the machine changed. -/
def Obligations.FailedCommandsChangeNothing : Prop :=
  ∀ (c : Command) (s t : State) (e : ErrorName), performCommand c s = .next t →
    t.replies = s.replies ++ [.error e] →
    t = { s with replies := s.replies ++ [.error e] } ∧ ((∃ a, c = .setAddress a) ∨ ∃ ins x, c = .insert ins x)

/-- R141: a construction sequence stops at its first error reply: what follows is not performed. Before the error every command has
replied ok or was START. -/
def Obligations.ConstructionStopsAtFirstError : Prop :=
  ∀ (before after : List Command) (c : Command) (s u t : State) (e : ErrorName),
    construction before s = .next u → u.replies = s.replies ++ List.replicate before.length .ok →
    performCommand c u = .next t → t.replies = u.replies ++ [.error e] →
    construction (before ++ c :: after) s = .next t

/-! Whole-machine rules. -/

/-- State.reset meets the invariant. The values of R34; the memory size and its content are the model's choice (log 2, log 3). -/
def Obligations.ResetMeetsTheInvariant : Prop := State.reset.Inv

/-- R33 items 1 to 5: the invariant of reachable states is kept by every step, the engine's and the host's. -/
def Obligations.EveryStepKeepsTheInvariant : Prop := ∀ s t : State, s.Inv → step s = .next t → t.Inv

/-- R33 item 2: after an engine step that completes without a fault the pc is an address of the memory. -/
def Obligations.CompletedStepLeavesPcInMemory : Prop :=
  ∀ s t : State, s.enabled → step s = .next t → t.fault = none → t.pc < t.memSize

/-- R33 items 6 and 7, R103, R57: an engine step changes at most one word of memory, at or above the stack bottom and below the last
word, and never the stack bottom: the program cannot modify the program region. -/
def Obligations.EngineNeverWritesTheProgramRegion : Prop :=
  ∀ s t : State, s.Inv → s.enabled → step s = .next t →
    t.sb = s.sb ∧ t.memSize = s.memSize ∧
    (∀ a, t.mem.read a ≠ s.mem.read a → s.sb ≤ a ∧ a + 1 < s.memSize) ∧
    ∀ a b, t.mem.read a ≠ s.mem.read a → t.mem.read b ≠ s.mem.read b → a = b

/-- R101, R147, R166, R33 item 9: an engine step leaves the run in progress without a reply, or ends it by STOP with reply ok, or ends
it by a fault with the fault as reply, the machine RUNNING and the pc at the instruction that faulted (latch D9; replies are the
model's record, log 6). -/
def Obligations.RunEndsOnceWithItsReply : Prop :=
  ∀ s t : State, s.enabled → step s = .next t →
    (t.enabled ∧ t.replies = s.replies) ∨
    (t.completed ∧ t.replies = s.replies ++ [.ok] ∧ t.pc = s.pc) ∨
    (∃ e, t.fault = some e ∧ t.rs = .running ∧ t.pc = s.pc ∧ t.replies = s.replies ++ [.error e])

/-- R27, R169: the latch, once set, is cleared by no step but the host's CONSTRUCT (latch D9). -/
def Obligations.LatchIsClearedOnlyByConstruct : Prop :=
  ∀ (s t : State) (e : ErrorName), s.fault = some e → step s = .next t →
    t.fault = some e ∨ ∃ n memInit cs, s.script = .construct n memInit :: cs

/-- R25: the run state goes from INITIALIZING to RUNNING by START, from RUNNING to STOPPED by an engine step, and otherwise changes
only by CONSTRUCT, to INITIALIZING. -/
def Obligations.RunStateOnlyMovesForward : Prop :=
  ∀ s t : State, step s = .next t →
    t.rs = s.rs ∨
    (s.rs = .initializing ∧ t.rs = .running ∧ t.sp = t.sb ∧ ∃ cs, s.script = .start :: cs) ∨
    (s.enabled ∧ t.rs = .stopped) ∨
    (t.rs = .initializing ∧ ∃ n memInit cs, s.script = .construct n memInit :: cs)

/-- R28, R166: events are only ever appended, but by CONSTRUCT, which begins a new stream. -/
def Obligations.EventsAreNeverWithdrawn : Prop :=
  ∀ s t : State, step s = .next t →
    (∃ events, t.out = s.out ++ events) ∨ (t.out = [] ∧ ∃ n memInit cs, s.script = .construct n memInit :: cs)

/-- R110 corner case (c), R197: from an address on, words that are NOPs up to the last one are advanced over one by one, and the NOP
in the last word faults there (latch D9). -/
def Obligations.NopsAreWalkedToTheLastWord : Prop :=
  ∀ s : State, s.enabled → s.pc < s.memSize →
    (∀ a, s.pc ≤ a → a < s.memSize → ∃ arg, decodeWord (s.mem.read a) = .instr (.nop arg)) →
    ∃ t, Host.Core.run core (s.memSize - 1 - s.pc) s = .next t ∧ t.enabled ∧ t.pc + 1 = s.memSize ∧ t.mem = s.mem ∧ t.sp = s.sp ∧
      step t = .next (takeFault .programCounterOverflow t)

/-- R120 corner case (a), R101 fate 3, R199: a CALL to its own address goes on for ever: after any number of steps the run is still in
progress with nothing changed but the trace. -/
def Obligations.CallToItselfNeverEnds : Prop :=
  ∀ (s : State) (arg : Arg), s.enabled → s.pc < s.memSize → decodeWord (s.mem.read s.pc) = .instr (.call arg) →
    arg.toNat = s.pc → ∀ k, ∃ events, Host.Core.run core k s = .next { s with out := s.out ++ events }

/-- R26, R146: the verbose flag has no effect on computed results: two states that differ only in the flag and in debug events answer
every step alike but for the flag and debug events. -/
def Obligations.VerboseHasNoEffectOnResults : Prop :=
  ∀ s t : State, s.untraced = t.untraced → untracedAnswer (step s) = untracedAnswer (step t)
end

