-- ==== Sys2Proof/Laws/Codec.lean ====
section
/-!
SUPPORT. Small laws of the codec: the two fields of an encoded word, and the table's codes.
-/

namespace Sys2Proof

/-- Two words with the same opcode byte and the same argument are the same word (R70). -/
theorem word_ext {w w' : Word} (hb : w.extractLsb' 24 8 = w'.extractLsb' 24 8)
    (ha : w.extractLsb' 0 24 = w'.extractLsb' 0 24) : w = w' := by
  have h : ∀ u : Word, u.extractLsb' 24 8 ++ u.extractLsb' 0 24 = u := fun u => by
    apply BitVec.eq_of_getLsbD_eq
    intro i hi
    simp only [BitVec.getLsbD_append, BitVec.getLsbD_extractLsb']
    by_cases h24 : i < 24
    · simp [h24]
    · have h8 : i - 24 < 8 := by omega
      have hi' : 24 + (i - 24) = i := by omega
      simp [h24, h8, hi']
  rw [← h w, ← h w', hb, ha]

/-- The table finds every member by its code (R75, R76). -/
theorem lookup_code (op : Opcode) : lookup op.code = some op := by cases op <;> rfl

/-- An instruction is made of its opcode and its argument. -/
theorem Instr.eq_instr (i : Instr) : i.opcode.instr i.argument = i := by cases i <;> rfl

@[simp] theorem Opcode.opcode_instr (op : Opcode) (a : Arg) : (op.instr a).opcode = op := by cases op <;> rfl
@[simp] theorem Opcode.argument_instr (op : Opcode) (a : Arg) : (op.instr a).argument = a := by cases op <;> rfl

/-- A word whose opcode byte the table knows is that opcode's instruction. -/
theorem decodeWord_of_lookup {w : Word} {op : Opcode} (h : lookup (decode w).1 = some op) :
    decodeWord w = .instr (op.instr (decode w).2) := by
  simp only [decodeWord, h]

/-- A word whose opcode byte the table does not know is rejected by name. -/
theorem decodeWord_of_lookup_none {w : Word} (h : lookup (decode w).1 = none) :
    decodeWord w = .invalid (decode w).1 := by
  simp only [decodeWord, h]

end Sys2Proof
end

