-- ==== Sys2Proof/Laws/Memory.lean ====
section
/-!
SUPPORT. The laws of memory (20_memory.md R55): a read after a write, and that writing keeps the canonical form and the bound.
-/

namespace Sys2Proof.Machine

/-- A write leaves every other word alone. -/
theorem Memory.read_write_of_ne {a b : Nat} (h : b ≠ a) (v : Word) (m : Memory) :
    (m.write a v).read b = m.read b := by
  induction m with
  | nil => by_cases hv : v = Config.unlistedWord <;> simp [Memory.write, Memory.read, hv, h]
  | cons c m ih =>
    obtain ⟨x, w⟩ := c
    simp only [Memory.write]
    split_ifs with h1 h2 h3 h4
    · rfl
    · simp [Memory.read, h]
    · subst h3; simp [Memory.read, h]
    · subst h3; simp [Memory.read, h]
    · simp [Memory.read, ih]

/-- An address below every listed one reads as unlisted. -/
theorem Memory.read_of_risingFrom {m : Memory} {lo a : Nat} (h : m.risingFrom lo = true) (ha : a < lo) :
    m.read a = Config.unlistedWord := by
  induction m generalizing lo with
  | nil => rfl
  | cons c m ih =>
    obtain ⟨x, w⟩ := c
    simp only [Memory.risingFrom, Bool.and_eq_true, decide_eq_true_eq] at h
    have hne : a ≠ x := by omega
    simpa [Memory.read, hne] using ih h.2 (by omega)

theorem Memory.read_write_of_risingFrom {m : Memory} {lo : Nat} (h : m.risingFrom lo = true) (a : Nat) (v : Word) :
    (m.write a v).read a = v := by
  induction m generalizing lo with
  | nil => by_cases hv : v = Config.unlistedWord <;> simp [Memory.write, Memory.read, hv]
  | cons c m ih =>
    obtain ⟨x, w⟩ := c
    have hx := h
    simp only [Memory.risingFrom, Bool.and_eq_true, decide_eq_true_eq] at h
    simp only [Memory.write]
    split_ifs with h1 h2 h3 h4
    · have hne : a ≠ x := by omega
      simpa [Memory.read, hne, h2] using Memory.read_of_risingFrom h.2 (a := a) (by omega)
    · simp [Memory.read]
    · subst h3; simpa [h4] using Memory.read_of_risingFrom h.2 (a := a) (by omega)
    · simp [Memory.read]
    · simpa [Memory.read, h3] using ih h.2

/-- A read after a write to the same address gives the word written. -/
theorem Memory.read_write_same {m : Memory} (h : m.wf = true) (a : Nat) (v : Word) : (m.write a v).read a = v :=
  Memory.read_write_of_risingFrom h a v

theorem Memory.risingFrom_mono {m : Memory} {lo lo' : Nat} (hle : lo' ≤ lo) (h : m.risingFrom lo = true) :
    m.risingFrom lo' = true := by
  cases m with
  | nil => rfl
  | cons c m =>
    obtain ⟨x, w⟩ := c
    simp only [Memory.risingFrom, Bool.and_eq_true, decide_eq_true_eq] at h ⊢
    exact ⟨⟨by omega, h.1.2⟩, h.2⟩

theorem Memory.risingFrom_write {m : Memory} {lo a : Nat} (h : m.risingFrom lo = true) (ha : lo ≤ a) (v : Word) :
    (m.write a v).risingFrom lo = true := by
  induction m generalizing lo with
  | nil => by_cases hv : v = Config.unlistedWord <;> simp [Memory.write, Memory.risingFrom, hv, ha]
  | cons c m ih =>
    obtain ⟨x, w⟩ := c
    have hx := h
    simp only [Memory.risingFrom, Bool.and_eq_true, decide_eq_true_eq] at h
    simp only [Memory.write]
    split_ifs with h1 h2 h3 h4
    · exact hx
    · simp only [Memory.risingFrom, Bool.and_eq_true, decide_eq_true_eq]
      exact ⟨⟨ha, h2⟩, ⟨by omega, h.1.2⟩, h.2⟩
    · exact Memory.risingFrom_mono (by omega) h.2
    · subst h3
      simp only [Memory.risingFrom, Bool.and_eq_true, decide_eq_true_eq]
      exact ⟨⟨ha, h4⟩, h.2⟩
    · simp only [Memory.risingFrom, Bool.and_eq_true, decide_eq_true_eq]
      exact ⟨h.1, ih h.2 (by omega)⟩

/-- A write keeps the canonical form. -/
theorem Memory.write_wf {m : Memory} (h : m.wf = true) (a : Nat) (v : Word) : (m.write a v).wf = true :=
  Memory.risingFrom_write h (Nat.zero_le a) v

theorem Memory.within_cons {n x : Nat} {w : Word} {m : Memory} :
    Memory.within n ((x, w) :: m) = true ↔ x < n ∧ m.within n = true := by
  simp [Memory.within]

/-- A write below the bound keeps the bound. -/
theorem Memory.write_within {m : Memory} {n a : Nat} (h : m.within n = true) (ha : a < n) (v : Word) :
    (m.write a v).within n = true := by
  induction m with
  | nil => by_cases hv : v = Config.unlistedWord <;> simp [Memory.write, Memory.within, hv, ha]
  | cons c m ih =>
    obtain ⟨x, w⟩ := c
    have hx := h
    rw [Memory.within_cons] at h
    simp only [Memory.write]
    split_ifs with h1 h2 h3 h4
    · exact hx
    · exact Memory.within_cons.2 ⟨ha, hx⟩
    · exact h.2
    · exact Memory.within_cons.2 ⟨ha, h.2⟩
    · exact Memory.within_cons.2 ⟨h.1, ih h.2⟩

/-- Two canonical memories that read the same are the same list. -/
theorem Memory.eq_of_risingFrom {m m' : Memory} {lo : Nat} (h : m.risingFrom lo = true) (h' : m'.risingFrom lo = true)
    (heq : ∀ a, m.read a = m'.read a) : m = m' := by
  induction m generalizing m' lo with
  | nil =>
    cases m' with
    | nil => rfl
    | cons c' m' =>
      obtain ⟨y, u⟩ := c'
      have := heq y
      simp [Memory.risingFrom, Memory.read] at h' this
      exact absurd this.symm h'.1.2
  | cons c m ih =>
    obtain ⟨x, w⟩ := c
    cases m' with
    | nil =>
      have := heq x
      simp [Memory.risingFrom, Memory.read] at h this
      exact absurd this h.1.2
    | cons c' m' =>
      obtain ⟨y, u⟩ := c'
      have hm := h
      have hm' := h'
      simp only [Memory.risingFrom, Bool.and_eq_true, decide_eq_true_eq] at h h'
      have hxy : x = y := by
        rcases Nat.lt_trichotomy x y with hlt | heq' | hgt
        · have h1 := heq x
          rw [Memory.read_of_risingFrom (m := (y, u) :: m') (lo := y) (by simp [Memory.risingFrom, h'.1.2, h'.2]) hlt] at h1
          simp [Memory.read] at h1
          exact absurd h1 h.1.2
        · exact heq'
        · have h1 := heq y
          rw [Memory.read_of_risingFrom (m := (x, w) :: m) (lo := x) (by simp [Memory.risingFrom, h.1.2, h.2]) hgt] at h1
          simp [Memory.read] at h1
          exact absurd h1.symm h'.1.2
      subst hxy
      have hwu : w = u := by simpa [Memory.read] using heq x
      subst hwu
      have : m = m' := by
        refine ih h.2 h'.2 fun a => ?_
        by_cases hax : a = x
        · subst hax
          rw [Memory.read_of_risingFrom h.2 (by omega), Memory.read_of_risingFrom h'.2 (by omega)]
        · simpa [Memory.read, hax] using heq a
      rw [this]

/-- The memory CONSTRUCT allocates is in canonical form. -/
theorem Memory.ofCells_wf (n : Nat) (cells : List (Nat × Word)) : (Memory.ofCells n cells).wf = true := by
  induction cells with
  | nil => rfl
  | cons c cells ih =>
    obtain ⟨a, v⟩ := c
    simp only [Memory.ofCells]
    split_ifs
    · exact Memory.write_wf ih a v
    · exact ih

/-- The memory CONSTRUCT allocates lists only words below N. -/
theorem Memory.ofCells_within (n : Nat) (cells : List (Nat × Word)) : (Memory.ofCells n cells).within n = true := by
  induction cells with
  | nil => rfl
  | cons c cells ih =>
    obtain ⟨a, v⟩ := c
    simp only [Memory.ofCells]
    split_ifs with h
    · exact Memory.write_within ih h v
    · exact ih

end Sys2Proof.Machine
end

