-- ==== Sys2Proof/Laws/State.lean ====
section
/-!
SUPPORT. The fields of a state after each named update: one lemma per field, so that no later proof unfolds an update.
-/

namespace Sys2Proof.Machine

/-- What is traced depends on the verbose flag alone. -/
theorem State.traced_congr {s t : State} (h : s.verbose = t.verbose) (e : Event) : s.traced e = t.traced e := by
  rw [State.traced, State.traced, h]

theorem State.traced_of_quiet {s : State} (h : s.verbose = false) (e : Event) : s.traced e = [] := by
  rw [State.traced, h]
  rfl

theorem State.traced_of_verbose {s : State} (h : s.verbose = true) (e : Event) : s.traced e = [e] := by
  rw [State.traced, h]
  rfl

section
variable (s : State) (e : Event) (r : Reply) (f : ErrorName)

@[simp] theorem State.emit_mem : (s.emit e).mem = s.mem := rfl
@[simp] theorem State.emit_memSize : (s.emit e).memSize = s.memSize := rfl
@[simp] theorem State.emit_pc : (s.emit e).pc = s.pc := rfl
@[simp] theorem State.emit_sp : (s.emit e).sp = s.sp := rfl
@[simp] theorem State.emit_sb : (s.emit e).sb = s.sb := rfl
@[simp] theorem State.emit_rs : (s.emit e).rs = s.rs := rfl
@[simp] theorem State.emit_verbose : (s.emit e).verbose = s.verbose := rfl
@[simp] theorem State.emit_fault : (s.emit e).fault = s.fault := rfl
@[simp] theorem State.emit_out : (s.emit e).out = s.out ++ [e] := rfl
@[simp] theorem State.emit_traced (d : Event) : (s.emit e).traced d = s.traced d := rfl
@[simp] theorem State.emit_script : (s.emit e).script = s.script := rfl
@[simp] theorem State.emit_replies : (s.emit e).replies = s.replies := rfl

@[simp] theorem State.trace_mem : (s.trace e).mem = s.mem := rfl
@[simp] theorem State.trace_memSize : (s.trace e).memSize = s.memSize := rfl
@[simp] theorem State.trace_pc : (s.trace e).pc = s.pc := rfl
@[simp] theorem State.trace_sp : (s.trace e).sp = s.sp := rfl
@[simp] theorem State.trace_sb : (s.trace e).sb = s.sb := rfl
@[simp] theorem State.trace_rs : (s.trace e).rs = s.rs := rfl
@[simp] theorem State.trace_verbose : (s.trace e).verbose = s.verbose := rfl
@[simp] theorem State.trace_fault : (s.trace e).fault = s.fault := rfl
@[simp] theorem State.trace_out : (s.trace e).out = s.out ++ s.traced e := rfl
@[simp] theorem State.trace_traced (d : Event) : (s.trace e).traced d = s.traced d := rfl
@[simp] theorem State.trace_script : (s.trace e).script = s.script := rfl
@[simp] theorem State.trace_replies : (s.trace e).replies = s.replies := rfl

@[simp] theorem State.reply_mem : (s.reply r).mem = s.mem := rfl
@[simp] theorem State.reply_memSize : (s.reply r).memSize = s.memSize := rfl
@[simp] theorem State.reply_pc : (s.reply r).pc = s.pc := rfl
@[simp] theorem State.reply_sp : (s.reply r).sp = s.sp := rfl
@[simp] theorem State.reply_sb : (s.reply r).sb = s.sb := rfl
@[simp] theorem State.reply_rs : (s.reply r).rs = s.rs := rfl
@[simp] theorem State.reply_verbose : (s.reply r).verbose = s.verbose := rfl
@[simp] theorem State.reply_fault : (s.reply r).fault = s.fault := rfl
@[simp] theorem State.reply_out : (s.reply r).out = s.out := rfl
@[simp] theorem State.reply_traced (d : Event) : (s.reply r).traced d = s.traced d := rfl
@[simp] theorem State.reply_script : (s.reply r).script = s.script := rfl
@[simp] theorem State.reply_replies : (s.reply r).replies = s.replies ++ [r] := rfl

@[simp] theorem takeFault_mem : (takeFault f s).mem = s.mem := rfl
@[simp] theorem takeFault_memSize : (takeFault f s).memSize = s.memSize := rfl
@[simp] theorem takeFault_pc : (takeFault f s).pc = s.pc := rfl
@[simp] theorem takeFault_sp : (takeFault f s).sp = s.sp := rfl
@[simp] theorem takeFault_sb : (takeFault f s).sb = s.sb := rfl
@[simp] theorem takeFault_rs : (takeFault f s).rs = s.rs := rfl
@[simp] theorem takeFault_verbose : (takeFault f s).verbose = s.verbose := rfl
@[simp] theorem takeFault_fault : (takeFault f s).fault = some f := rfl
@[simp] theorem takeFault_out : (takeFault f s).out = s.out := rfl
@[simp] theorem takeFault_script : (takeFault f s).script = s.script := rfl
@[simp] theorem takeFault_replies : (takeFault f s).replies = s.replies ++ [.error f] := rfl

@[simp] theorem stopRun_mem : (stopRun s).mem = s.mem := rfl
@[simp] theorem stopRun_memSize : (stopRun s).memSize = s.memSize := rfl
@[simp] theorem stopRun_pc : (stopRun s).pc = s.pc := rfl
@[simp] theorem stopRun_sp : (stopRun s).sp = s.sp := rfl
@[simp] theorem stopRun_sb : (stopRun s).sb = s.sb := rfl
@[simp] theorem stopRun_rs : (stopRun s).rs = .stopped := rfl
@[simp] theorem stopRun_verbose : (stopRun s).verbose = s.verbose := rfl
@[simp] theorem stopRun_fault : (stopRun s).fault = s.fault := rfl
@[simp] theorem stopRun_out : (stopRun s).out = s.out := rfl
@[simp] theorem stopRun_script : (stopRun s).script = s.script := rfl
@[simp] theorem stopRun_replies : (stopRun s).replies = s.replies ++ [.ok] := rfl

@[simp] theorem beginRun_mem : (beginRun s).mem = s.mem := rfl
@[simp] theorem beginRun_memSize : (beginRun s).memSize = s.memSize := rfl
@[simp] theorem beginRun_pc : (beginRun s).pc = s.pc := rfl
@[simp] theorem beginRun_sp : (beginRun s).sp = s.sb := rfl
@[simp] theorem beginRun_sb : (beginRun s).sb = s.sb := rfl
@[simp] theorem beginRun_rs : (beginRun s).rs = .running := rfl
@[simp] theorem beginRun_verbose : (beginRun s).verbose = s.verbose := rfl
@[simp] theorem beginRun_fault : (beginRun s).fault = s.fault := rfl
@[simp] theorem beginRun_out : (beginRun s).out = s.out := rfl
@[simp] theorem beginRun_script : (beginRun s).script = s.script := rfl
@[simp] theorem beginRun_replies : (beginRun s).replies = s.replies := rfl
end

end Sys2Proof.Machine
end

