-- ==== Sys2Proof/Laws/Ops.lean ====
section
/-!
SUPPORT. What each shared operation can do, said once: for the primitives an equation under each of its conditions, and for a
sequence of operations how its end comes about. Later proofs cite these and unfold no operation.
-/

namespace Sys2Proof.Machine

section
variable {α β : Type}

theorem Flow.andThen_done (a : α) (s : State) (k : α → State → Flow β) : (Flow.done a s).andThen k = k a s := rfl
theorem Flow.andThen_raise (e : ErrorName) (s : State) (k : α → State → Flow β) :
    (Flow.raise e s).andThen k = .raise e s := rfl
theorem Flow.andThen_stuck (f : Fault) (k : α → State → Flow β) : (Flow.stuck f).andThen k = .stuck f := rfl

/-- A sequence completes when its first part does and then its second. -/
theorem Flow.andThen_eq_done {x : Flow α} {k : α → State → Flow β} {b : β} {t : State}
    (h : x.andThen k = .done b t) : ∃ a s, x = .done a s ∧ k a s = .done b t := by
  cases x with
  | done a s => exact ⟨a, s, rfl, h⟩
  | raise e s => cases h
  | stuck f => cases h

/-- A sequence raises when its first part does, or its second after the first completed. -/
theorem Flow.andThen_eq_raise {x : Flow α} {k : α → State → Flow β} {e : ErrorName} {t : State}
    (h : x.andThen k = .raise e t) : x = .raise e t ∨ ∃ a s, x = .done a s ∧ k a s = .raise e t := by
  cases x with
  | done a s => exact .inr ⟨a, s, rfl, h⟩
  | raise e' s => cases h; exact .inl rfl
  | stuck f => cases h

/-- A step has a next state when its operations completed or raised. -/
theorem endStep_eq_next {x : Flow Unit} {t : State} (h : endStep x = .next t) :
    x = .done () t ∨ ∃ e s, x = .raise e s ∧ t = takeFault e s := by
  cases x with
  | done a s => cases h; exact .inl rfl
  | raise e s => cases h; exact .inr ⟨e, s, rfl, rfl⟩
  | stuck f => cases h

end

section
variable {s t : State} {v : Word}

theorem memRead_of_mem {a : Int} (h : 0 ≤ a ∧ a < s.memSize) : memRead a s = .done (s.mem.read a.toNat) s := if_pos h
theorem memWrite_of_mem {a : Int} (h : 0 ≤ a ∧ a < s.memSize) (v : Word) :
    memWrite a v s = .done () { s with mem := s.mem.write a.toNat v } := if_pos h

/-- PushStack with room (R90). -/
theorem pushStack_of_room (h0 : 0 ≤ s.sp) (h : s.sp + 1 < s.memSize) (v : Word) :
    pushStack v s = .done () (State.trace { s with mem := s.mem.write s.sp.toNat v, sp := s.sp + 1 }
      (.debugPush s.sp.toNat v)) := by
  have h1 : ¬ ((s.memSize : Int) - 1 ≤ s.sp) := by omega
  rw [pushStack, if_neg h1, memWrite_of_mem (by omega), Flow.andThen_done]

/-- PushStack without room (R90). -/
theorem pushStack_of_full (h : (s.memSize : Int) ≤ s.sp + 1) (v : Word) : pushStack v s = .raise .stackOverflow s :=
  if_pos (by omega)

/-- PopStack of a word (R91). -/
theorem popStack_of_word (h : (s.sb : Int) < s.sp) (hN : s.sp ≤ s.memSize) :
    popStack s = .done (s.mem.read (s.sp - 1).toNat)
      (State.trace { s with sp := s.sp - 1 } (.debugPop (s.sp - 1).toNat (s.mem.read (s.sp - 1).toNat))) := by
  have h1 : ¬ (s.sp - 1 < (s.sb : Int)) := by omega
  rw [popStack, if_neg h1, memRead_of_mem ⟨by omega, by simp only; omega⟩, Flow.andThen_done]

/-- PopStack of the empty stack (R91): the decrement stays. -/
theorem popStack_of_empty (h : s.sp ≤ s.sb) : popStack s = .raise .stackUnderflow { s with sp := s.sp - 1 } :=
  if_pos (by omega)

/-- MovePC into memory (R92). -/
theorem movePC_of_lt {a : Nat} (h : a < s.memSize) :
    movePC a s = .done () (State.trace { s with pc := a } (.debugPcMove a)) := if_neg (by omega)

/-- MovePC out of memory (R92). -/
theorem movePC_of_ge {a : Nat} (h : s.memSize ≤ a) : movePC a s = .raise .programCounterOverflow s := if_pos h

/-- AdvancePC below the last index (R93). -/
theorem advancePC_of_lt (h : s.pc + 1 < s.memSize) :
    advancePC s = .done () (State.trace { s with pc := s.pc + 1 } (.debugPcAdvance (s.pc + 1))) := if_neg (by omega)

/-- AdvancePC at the last index (R93). -/
theorem advancePC_of_last (h : s.memSize ≤ s.pc + 1) : advancePC s = .raise .programCounterOverflow s := if_pos h

/-- Fetch inside memory (R94). -/
theorem fetch_of_lt (h : s.pc < s.memSize) : fetch s = .done (s.mem.read s.pc) s := by
  rw [fetch, if_neg (by omega), memRead_of_mem (by omega)]
  simp

/-- Fetch outside memory (R94). -/
theorem fetch_of_ge (h : s.memSize ≤ s.pc) : fetch s = .raise .fetchAddressOutOfRange s := if_pos h

/-- A push that completes had room and wrote the slot at sp. -/
theorem pushStack_eq_done {u : Unit} (h : pushStack v s = .done u t) :
    0 ≤ s.sp ∧ s.sp + 1 < s.memSize ∧
      t = State.trace { s with mem := s.mem.write s.sp.toNat v, sp := s.sp + 1 } (.debugPush s.sp.toNat v) := by
  by_cases hf : (s.memSize : Int) ≤ s.sp + 1
  · rw [pushStack_of_full hf] at h; cases h
  · by_cases h0 : 0 ≤ s.sp
    · rw [pushStack_of_room h0 (by omega)] at h; cases h; exact ⟨h0, by omega, rfl⟩
    · rw [pushStack, if_neg (by omega), memWrite, if_neg (by omega)] at h; cases h

/-- A push that raises found no room and changed nothing. -/
theorem pushStack_eq_raise {e : ErrorName} (h : pushStack v s = .raise e t) :
    (s.memSize : Int) ≤ s.sp + 1 ∧ e = .stackOverflow ∧ t = s := by
  by_cases hf : (s.memSize : Int) ≤ s.sp + 1
  · rw [pushStack_of_full hf] at h; cases h; exact ⟨hf, rfl, rfl⟩
  · by_cases h0 : 0 ≤ s.sp
    · rw [pushStack_of_room h0 (by omega)] at h; cases h
    · rw [pushStack, if_neg (by omega), memWrite, if_neg (by omega)] at h; cases h

/-- A pop that completes had a word and answers it. -/
theorem popStack_eq_done (h : popStack s = .done v t) :
    (s.sb : Int) < s.sp ∧ s.sp ≤ s.memSize ∧ v = s.mem.read (s.sp - 1).toNat ∧
      t = State.trace { s with sp := s.sp - 1 } (.debugPop (s.sp - 1).toNat v) := by
  by_cases he : s.sp ≤ s.sb
  · rw [popStack_of_empty he] at h; cases h
  · by_cases hN : s.sp ≤ s.memSize
    · rw [popStack_of_word (by omega) hN] at h; cases h; exact ⟨by omega, hN, rfl, rfl⟩
    · rw [popStack, if_neg (by omega), memRead, if_neg (by simp only; omega)] at h; cases h

/-- A pop that raises found the stack empty and keeps the decrement. -/
theorem popStack_eq_raise {e : ErrorName} (h : popStack s = .raise e t) :
    s.sp ≤ s.sb ∧ e = .stackUnderflow ∧ t = { s with sp := s.sp - 1 } := by
  by_cases he : s.sp ≤ s.sb
  · rw [popStack_of_empty he] at h; cases h; exact ⟨he, rfl, rfl⟩
  · by_cases hN : s.sp ≤ s.memSize
    · rw [popStack_of_word (by omega) hN] at h; cases h
    · rw [popStack, if_neg (by omega), memRead, if_neg (by simp only; omega)] at h; cases h

/-- A move that completes went to an address of the memory. -/
theorem movePC_eq_done {a : Nat} {u : Unit} (h : movePC a s = .done u t) :
    a < s.memSize ∧ t = State.trace { s with pc := a } (.debugPcMove a) := by
  by_cases ha : a < s.memSize
  · rw [movePC_of_lt ha] at h; cases h; exact ⟨ha, rfl⟩
  · rw [movePC_of_ge (by omega)] at h; cases h

/-- A move that raises changed nothing. -/
theorem movePC_eq_raise {a : Nat} {e : ErrorName} (h : movePC a s = .raise e t) :
    s.memSize ≤ a ∧ e = .programCounterOverflow ∧ t = s := by
  by_cases ha : a < s.memSize
  · rw [movePC_of_lt ha] at h; cases h
  · rw [movePC_of_ge (by omega)] at h; cases h; exact ⟨by omega, rfl, rfl⟩

/-- An advance that completes went to the next address. -/
theorem advancePC_eq_done {u : Unit} (h : advancePC s = .done u t) :
    s.pc + 1 < s.memSize ∧ t = State.trace { s with pc := s.pc + 1 } (.debugPcAdvance (s.pc + 1)) := by
  by_cases ha : s.pc + 1 < s.memSize
  · rw [advancePC_of_lt ha] at h; cases h; exact ⟨ha, rfl⟩
  · rw [advancePC_of_last (by omega)] at h; cases h

/-- An advance that raises changed nothing. -/
theorem advancePC_eq_raise {e : ErrorName} (h : advancePC s = .raise e t) :
    s.memSize ≤ s.pc + 1 ∧ e = .programCounterOverflow ∧ t = s := by
  by_cases ha : s.pc + 1 < s.memSize
  · rw [advancePC_of_lt ha] at h; cases h
  · rw [advancePC_of_last (by omega)] at h; cases h; exact ⟨by omega, rfl, rfl⟩

end

/-! The template (R97): each form is its pops, then its operation, then the advance. -/

theorem template0_advance (op : State → Flow Unit) (s : State) :
    template0 true op s = (op s).andThen fun _ t => advancePC t := rfl

theorem template0_stay (op : State → Flow Unit) (s : State) :
    template0 false op s = (op s).andThen fun _ t => .done () t := rfl

theorem template1_eq (adv : Bool) (op : Word → State → Flow Unit) (s : State) :
    template1 adv op s = (popStack s).andThen fun v t => template0 adv (op v) t := rfl

theorem template2_eq (adv : Bool) (op : Word → Word → State → Flow Unit) (s : State) :
    template2 adv op s = (popStack s).andThen fun v t => template1 adv (op v) t := rfl

end Sys2Proof.Machine
end

