-- ==== Sys2Proof/Laws/Exec.lean ====
section
/-!
SUPPORT. What each instruction can do, said once: if `exec` answers a next state, then that state is one of these. The provers cite
these lemmas and unfold no meaning.
-/

namespace Sys2Proof.Machine

/-- `s` after AdvancePC. -/
def State.advanced (s : State) : State := State.trace { s with pc := s.pc + 1 } (.debugPcAdvance (s.pc + 1))

/-- `s` after MovePC to `a`. -/
def State.moved (s : State) (a : Nat) : State := State.trace { s with pc := a } (.debugPcMove a)

/-- The word PopStack answers. -/
def State.top (s : State) : Word := s.mem.read (s.sp - 1).toNat

/-- `s` after PopStack. -/
def State.popped (s : State) : State := State.trace { s with sp := s.sp - 1 } (.debugPop (s.sp - 1).toNat s.top)

/-- `s` after PushStack of `v`. -/
def State.pushed (s : State) (v : Word) : State :=
  State.trace { s with mem := s.mem.write s.sp.toNat v, sp := s.sp + 1 } (.debugPush s.sp.toNat v)

section
variable (s : State) (a : Nat) (v : Word)

@[simp] theorem State.advanced_mem : s.advanced.mem = s.mem := rfl
@[simp] theorem State.advanced_memSize : s.advanced.memSize = s.memSize := rfl
@[simp] theorem State.advanced_pc : s.advanced.pc = s.pc + 1 := rfl
@[simp] theorem State.advanced_sp : s.advanced.sp = s.sp := rfl
@[simp] theorem State.advanced_sb : s.advanced.sb = s.sb := rfl
@[simp] theorem State.advanced_rs : s.advanced.rs = s.rs := rfl
@[simp] theorem State.advanced_verbose : s.advanced.verbose = s.verbose := rfl
@[simp] theorem State.advanced_fault : s.advanced.fault = s.fault := rfl
@[simp] theorem State.advanced_out : s.advanced.out = s.out ++ s.traced (.debugPcAdvance (s.pc + 1)) := rfl
@[simp] theorem State.advanced_traced (e : Event) : s.advanced.traced e = s.traced e := rfl
@[simp] theorem State.advanced_script : s.advanced.script = s.script := rfl
@[simp] theorem State.advanced_replies : s.advanced.replies = s.replies := rfl

@[simp] theorem State.moved_mem : (s.moved a).mem = s.mem := rfl
@[simp] theorem State.moved_memSize : (s.moved a).memSize = s.memSize := rfl
@[simp] theorem State.moved_pc : (s.moved a).pc = a := rfl
@[simp] theorem State.moved_sp : (s.moved a).sp = s.sp := rfl
@[simp] theorem State.moved_sb : (s.moved a).sb = s.sb := rfl
@[simp] theorem State.moved_rs : (s.moved a).rs = s.rs := rfl
@[simp] theorem State.moved_verbose : (s.moved a).verbose = s.verbose := rfl
@[simp] theorem State.moved_fault : (s.moved a).fault = s.fault := rfl
@[simp] theorem State.moved_out : (s.moved a).out = s.out ++ s.traced (.debugPcMove a) := rfl
@[simp] theorem State.moved_traced (e : Event) : (s.moved a).traced e = s.traced e := rfl
@[simp] theorem State.moved_script : (s.moved a).script = s.script := rfl
@[simp] theorem State.moved_replies : (s.moved a).replies = s.replies := rfl

@[simp] theorem State.popped_mem : s.popped.mem = s.mem := rfl
@[simp] theorem State.popped_memSize : s.popped.memSize = s.memSize := rfl
@[simp] theorem State.popped_pc : s.popped.pc = s.pc := rfl
@[simp] theorem State.popped_sp : s.popped.sp = s.sp - 1 := rfl
@[simp] theorem State.popped_sb : s.popped.sb = s.sb := rfl
@[simp] theorem State.popped_rs : s.popped.rs = s.rs := rfl
@[simp] theorem State.popped_verbose : s.popped.verbose = s.verbose := rfl
@[simp] theorem State.popped_fault : s.popped.fault = s.fault := rfl
@[simp] theorem State.popped_out : s.popped.out = s.out ++ s.traced (.debugPop (s.sp - 1).toNat s.top) := rfl
@[simp] theorem State.popped_traced (e : Event) : s.popped.traced e = s.traced e := rfl
@[simp] theorem State.popped_script : s.popped.script = s.script := rfl
@[simp] theorem State.popped_replies : s.popped.replies = s.replies := rfl

@[simp] theorem State.pushed_mem : (s.pushed v).mem = s.mem.write s.sp.toNat v := rfl
@[simp] theorem State.pushed_memSize : (s.pushed v).memSize = s.memSize := rfl
@[simp] theorem State.pushed_pc : (s.pushed v).pc = s.pc := rfl
@[simp] theorem State.pushed_sp : (s.pushed v).sp = s.sp + 1 := rfl
@[simp] theorem State.pushed_sb : (s.pushed v).sb = s.sb := rfl
@[simp] theorem State.pushed_rs : (s.pushed v).rs = s.rs := rfl
@[simp] theorem State.pushed_verbose : (s.pushed v).verbose = s.verbose := rfl
@[simp] theorem State.pushed_fault : (s.pushed v).fault = s.fault := rfl
@[simp] theorem State.pushed_out : (s.pushed v).out = s.out ++ s.traced (.debugPush s.sp.toNat v) := rfl
@[simp] theorem State.pushed_traced (e : Event) : (s.pushed v).traced e = s.traced e := rfl
@[simp] theorem State.pushed_script : (s.pushed v).script = s.script := rfl
@[simp] theorem State.pushed_replies : (s.pushed v).replies = s.replies := rfl
end

section
variable {s t : State} {arg : Arg}

/-- A step that ends in an advance. -/
theorem endStep_advance_eq_next (h : endStep (advancePC s) = .next t) :
    (s.pc + 1 < s.memSize ∧ t = s.advanced) ∨
      (s.memSize ≤ s.pc + 1 ∧ t = takeFault .programCounterOverflow s) := by
  rcases endStep_eq_next h with hd | ⟨e, u, hr, rfl⟩
  · exact .inl (advancePC_eq_done hd)
  · obtain ⟨hpc, rfl, rfl⟩ := advancePC_eq_raise hr
    exact .inr ⟨hpc, rfl⟩

/-- A step that ends in a move. -/
theorem endStep_move_eq_next {a : Nat} (h : endStep ((movePC a s).andThen fun _ u => .done () u) = .next t) :
    (a < s.memSize ∧ t = s.moved a) ∨ (s.memSize ≤ a ∧ t = takeFault .programCounterOverflow s) := by
  rcases endStep_eq_next h with hd | ⟨e, u, hr, rfl⟩
  · obtain ⟨_, u, hm, hu⟩ := Flow.andThen_eq_done hd
    cases hu
    exact .inl (movePC_eq_done hm)
  · rcases Flow.andThen_eq_raise hr with hm | ⟨_, u', _, hu⟩
    · obtain ⟨ha, rfl, rfl⟩ := movePC_eq_raise hm
      exact .inr ⟨ha, rfl⟩
    · cases hu

/-- A step that begins with a pop: the pop failed, or the rest ran after it. -/
theorem endStep_pop_eq_next {k : Word → State → Flow Unit} (h : endStep ((popStack s).andThen k) = .next t) :
    (s.sp ≤ s.sb ∧ t = takeFault .stackUnderflow { s with sp := s.sp - 1 }) ∨
      ((s.sb : Int) < s.sp ∧ s.sp ≤ s.memSize ∧ endStep (k s.top s.popped) = .next t) := by
  cases hp : popStack s with
  | done v u =>
    obtain ⟨h1, h2, rfl, rfl⟩ := popStack_eq_done hp
    rw [hp, Flow.andThen_done] at h
    exact .inr ⟨h1, h2, h⟩
  | raise e u =>
    obtain ⟨h1, rfl, rfl⟩ := popStack_eq_raise hp
    rw [hp, Flow.andThen_raise] at h
    cases h
    exact .inl ⟨h1, rfl⟩
  | stuck f =>
    rw [hp, Flow.andThen_stuck] at h
    cases h

/-- A step that begins with a push: the push failed, or the rest ran after it. -/
theorem endStep_push_eq_next {v : Word} {k : Unit → State → Flow Unit}
    (h : endStep ((pushStack v s).andThen k) = .next t) :
    ((s.memSize : Int) ≤ s.sp + 1 ∧ t = takeFault .stackOverflow s) ∨
      (0 ≤ s.sp ∧ s.sp + 1 < s.memSize ∧ endStep (k () (s.pushed v)) = .next t) := by
  cases hp : pushStack v s with
  | done a u =>
    obtain ⟨h1, h2, rfl⟩ := pushStack_eq_done hp
    rw [hp, Flow.andThen_done] at h
    exact .inr ⟨h1, h2, h⟩
  | raise e u =>
    obtain ⟨h1, rfl, rfl⟩ := pushStack_eq_raise hp
    rw [hp, Flow.andThen_raise] at h
    cases h
    exact .inl ⟨h1, rfl⟩
  | stuck f =>
    rw [hp, Flow.andThen_stuck] at h
    cases h

theorem execNop_cases (h : execNop s = .next t) :
    (s.pc + 1 < s.memSize ∧ t = s.advanced) ∨
      (s.memSize ≤ s.pc + 1 ∧ t = takeFault .programCounterOverflow s) :=
  endStep_advance_eq_next h

theorem execStop_cases (h : execStop s = .next t) : t = stopRun s := by cases h; rfl

theorem execCall_cases (h : execCall arg s = .next t) :
    (argAddress arg < s.memSize ∧ t = s.moved (argAddress arg)) ∨
      (s.memSize ≤ argAddress arg ∧ t = takeFault .programCounterOverflow s) :=
  endStep_move_eq_next h

theorem execRet_cases (h : execRet s = .next t) :
    (s.sp ≤ s.sb ∧ t = takeFault .stackUnderflow { s with sp := s.sp - 1 }) ∨
      ((s.sb : Int) < s.sp ∧ s.sp ≤ s.memSize ∧
        ((wordAddress s.top < s.memSize ∧ t = s.popped.moved (wordAddress s.top)) ∨
          (s.memSize ≤ wordAddress s.top ∧ t = takeFault .programCounterOverflow s.popped))) := by
  rcases endStep_pop_eq_next h with hf | ⟨h1, h2, hk⟩
  · exact .inl hf
  · exact .inr ⟨h1, h2, endStep_move_eq_next hk⟩

theorem execPrint_cases (h : execPrint s = .next t) :
    (s.sp ≤ s.sb ∧ t = takeFault .stackUnderflow { s with sp := s.sp - 1 }) ∨
      ((s.sb : Int) < s.sp ∧ s.sp ≤ s.memSize ∧
        ((s.pc + 1 < s.memSize ∧ t = (s.popped.emit (.output (dec s.top))).advanced) ∨
          (s.memSize ≤ s.pc + 1 ∧
            t = takeFault .programCounterOverflow (s.popped.emit (.output (dec s.top)))))) := by
  rcases endStep_pop_eq_next h with hf | ⟨h1, h2, hk⟩
  · exact .inl hf
  · exact .inr ⟨h1, h2, endStep_advance_eq_next hk⟩

theorem execPush_cases (h : execPush arg s = .next t) :
    ((s.memSize : Int) ≤ s.sp + 1 ∧ t = takeFault .stackOverflow s) ∨
      (0 ≤ s.sp ∧ s.sp + 1 < s.memSize ∧
        ((s.pc + 1 < s.memSize ∧ t = (s.pushed (argWord arg)).advanced) ∨
          (s.memSize ≤ s.pc + 1 ∧ t = takeFault .programCounterOverflow (s.pushed (argWord arg))))) := by
  rcases endStep_push_eq_next h with hf | ⟨h1, h2, hk⟩
  · exact .inl hf
  · exact .inr ⟨h1, h2, endStep_advance_eq_next hk⟩

/-- MULT's push always has room (42_arithmetic_mult.md R117a), so it is no case of its own. -/
theorem execMult_cases (h : execMult s = .next t) :
    (s.sp ≤ s.sb ∧ t = takeFault .stackUnderflow { s with sp := s.sp - 1 }) ∨
      (s.sp = s.sb + 1 ∧ s.sp ≤ s.memSize ∧
        t = takeFault .stackUnderflow { s.popped with sp := s.sp - 2 }) ∨
      ((s.sb : Int) + 2 ≤ s.sp ∧ s.sp ≤ s.memSize ∧
        ((s.pc + 1 < s.memSize ∧ t = (s.popped.popped.pushed (product s.top s.popped.top)).advanced) ∨
          (s.memSize ≤ s.pc + 1 ∧
            t = takeFault .programCounterOverflow (s.popped.popped.pushed (product s.top s.popped.top))))) := by
  rcases endStep_pop_eq_next h with hf | ⟨h1, h2, hk⟩
  · exact .inl hf
  · rcases endStep_pop_eq_next hk with ⟨h3, rfl⟩ | ⟨h3, h4, hk'⟩
    · simp only [State.popped_sp, State.popped_sb] at h3
      refine .inr (.inl ⟨by omega, h2, ?_⟩)
      have : s.popped.sp - 1 = s.sp - 2 := by simp only [State.popped_sp]; omega
      rw [this]
    · simp only [State.popped_sp, State.popped_sb] at h3
      rcases endStep_push_eq_next hk' with ⟨h5, -⟩ | ⟨-, -, hk''⟩
      · simp only [State.popped_sp, State.popped_memSize] at h5
        omega
      · exact .inr (.inr ⟨by omega, h2, endStep_advance_eq_next hk''⟩)

end

end Sys2Proof.Machine
end

