-- ==== Sys2Proof/Laws/PerInstr.lean ====
section
/-!
SUPPORT. A statement for every instruction, by constructor: the two fields of its word are its opcode's code and its argument
(30_encoding.md R70, R73).
-/

namespace Sys2Proof.Laws.WordFields

/-- The opcode byte of the instruction's word is its code, and the low 24 bits are its argument. -/
def Statement (i : Instr) : Prop :=
  (encodeInstr i).extractLsb' 24 8 = i.opcode.code ∧ (encodeInstr i).extractLsb' 0 24 = i.argument

/-- The bits of an opcode byte above an argument. -/
theorem getLsbD_word (c : OpByte) (a : Arg) (j : Nat) :
    (c ++ a : Word).getLsbD j = if j < 24 then a.getLsbD j else c.getLsbD (j - 24) :=
  BitVec.getLsbD_append

theorem of_append (c : OpByte) (a : Arg) :
    (c ++ a : Word).extractLsb' 24 8 = c ∧ (c ++ a : Word).extractLsb' 0 24 = a := by
  constructor
  · apply BitVec.eq_of_getLsbD_eq
    intro i hi
    rw [BitVec.getLsbD_extractLsb', getLsbD_word]
    have h24 : ¬ 24 + i < 24 := by omega
    simp only [hi, h24, decide_true, if_false, Bool.true_and, Nat.add_sub_cancel_left]
  · apply BitVec.eq_of_getLsbD_eq
    intro i hi
    rw [BitVec.getLsbD_extractLsb', getLsbD_word]
    simp only [hi, decide_true, if_true, Bool.true_and, Nat.zero_add]

theorem ofInt_argument (a : Arg) : BitVec.ofInt 24 (a.toNat : Int) = a := by
  simp

theorem nop (arg : Arg) : Statement (.nop arg) := by
  simpa only [Statement, encodeInstr, encode, ofInt_argument] using of_append _ _
theorem mult (arg : Arg) : Statement (.mult arg) := by
  simpa only [Statement, encodeInstr, encode, ofInt_argument] using of_append _ _
theorem call (arg : Arg) : Statement (.call arg) := by
  simpa only [Statement, encodeInstr, encode, ofInt_argument] using of_append _ _
theorem ret (arg : Arg) : Statement (.ret arg) := by
  simpa only [Statement, encodeInstr, encode, ofInt_argument] using of_append _ _
theorem stop (arg : Arg) : Statement (.stop arg) := by
  simpa only [Statement, encodeInstr, encode, ofInt_argument] using of_append _ _
theorem print (arg : Arg) : Statement (.print arg) := by
  simpa only [Statement, encodeInstr, encode, ofInt_argument] using of_append _ _
theorem push (arg : Arg) : Statement (.push arg) := by
  simpa only [Statement, encodeInstr, encode, ofInt_argument] using of_append _ _

end Sys2Proof.Laws.WordFields
end

