-- ==== Sys2Proof/Laws/Step.lean ====
section
/-!
SUPPORT. What a step can do, said once: the engine's step by its three ends, the host's by its commands.
-/

namespace Sys2Proof.Machine

section
variable {s t : State}

theorem step_of_enabled (h : s.enabled) : step s = engineStep s := if_pos h
theorem step_of_not_enabled (h : ¬ s.enabled) : step s = hostStep s := if_neg h

theorem not_enabled_of_rs (h : s.rs ≠ .running) : ¬ s.enabled := fun he => h he.1
theorem not_enabled_of_fault {e : ErrorName} (h : s.fault = some e) : ¬ s.enabled := fun he => by
  rw [he.2] at h
  cases h

/-- An engine step with a next state failed to fetch, failed to decode, or ran the instruction at the pc. -/
theorem engineStep_cases (h : engineStep s = .next t) :
    (s.memSize ≤ s.pc ∧ t = takeFault .fetchAddressOutOfRange s) ∨
      (s.pc < s.memSize ∧
        ((∃ b, decodeWord (s.mem.read s.pc) = .invalid b ∧ t = takeFault .invalidInstruction s) ∨
          ∃ i, decodeWord (s.mem.read s.pc) = .instr i ∧ exec i s = .next t)) := by
  by_cases hpc : s.pc < s.memSize
  · rw [engineStep, fetch_of_lt hpc] at h
    refine .inr ⟨hpc, ?_⟩
    cases hd : decodeWord (s.mem.read s.pc) with
    | instr i => simp only [hd] at h; exact .inr ⟨i, rfl, h⟩
    | invalid b => simp only [hd] at h; cases h; exact .inl ⟨b, rfl, rfl⟩
  · rw [engineStep, fetch_of_ge (by omega)] at h
    cases h
    exact .inl ⟨by omega, rfl⟩

/-- A step with a next state is the engine's, or the host's next command outside a run. -/
theorem step_cases (h : step s = .next t) :
    (s.enabled ∧ engineStep s = .next t) ∨
      (¬ s.enabled ∧ ∃ c cs, s.script = c :: cs ∧ performCommand c { s with script := cs } = .next t) := by
  by_cases he : s.enabled
  · rw [step_of_enabled he] at h
    exact .inl ⟨he, h⟩
  · rw [step_of_not_enabled he, hostStep] at h
    cases hs : s.script with
    | nil => rw [hs] at h; cases h
    | cons c cs => rw [hs] at h; exact .inr ⟨he, c, cs, rfl, h⟩

/-- What a command can do when it is answered with a next state. -/
theorem performCommand_cases {c : Command} (h : performCommand c s = .next t) :
    ¬ s.enabled ∧
      match c with
      | .construct n memInit => c.wf = true ∧ t = (constructed n memInit s).reply .ok
      | .setAddress a => s.rs = .initializing ∧
          ((wordAddress a < s.memSize ∧ t = (s.moved (wordAddress a)).reply .ok) ∨
            (s.memSize ≤ wordAddress a ∧ t = s.reply (.error .programCounterOverflow)))
      | .insert ins x =>
          (s.rs ≠ .initializing ∧ t = s.reply (.error .invalidInsertState)) ∨
          (s.rs = .initializing ∧ s.memSize ≤ s.pc ∧ t = s.reply (.error .insertAddressOutOfRange)) ∨
          (s.rs = .initializing ∧ s.pc < s.memSize ∧
            t = (State.trace { s with mem := s.mem.write s.pc (encode ins x.toNat), pc := s.pc + 1,
                                      sb := max s.sb (s.pc + 1) }
                  (.debugInsert s.pc (encode ins x.toNat))).reply .ok)
      | .setVerbose b => s.rs = .initializing ∧ t = State.reply { s with verbose := b } .ok
      | .start => s.fault = none ∧
          ((s.rs = .initializing ∧ t = beginRun s) ∨ (s.rs = .stopped ∧ t = s.reply .ok)) := by
  by_cases he : s.enabled
  · rw [performCommand.eq_def, if_pos he] at h; cases h
  rw [performCommand.eq_def, if_neg he] at h
  refine ⟨he, ?_⟩
  cases c with
  | construct n memInit =>
    simp only [doConstruct] at h
    split_ifs at h with hw
    cases h
    exact ⟨hw, rfl⟩
  | setAddress a =>
    simp only [doSetAddress] at h
    split_ifs at h with hi
    refine ⟨hi, ?_⟩
    by_cases ha : wordAddress a < s.memSize
    · rw [movePC_of_lt ha] at h; cases h; exact .inl ⟨ha, rfl⟩
    · rw [movePC_of_ge (by omega)] at h; cases h; exact .inr ⟨by omega, rfl⟩
  | insert ins x =>
    simp only [doInsert, insertInstruction] at h
    split_ifs at h with hi hp
    · cases h; exact .inl ⟨hi, rfl⟩
    · cases h; exact .inr (.inl ⟨not_not.mp hi, hp, rfl⟩)
    · rw [memWrite_of_mem (by omega), Flow.andThen_done] at h
      cases h
      exact .inr (.inr ⟨not_not.mp hi, by omega, rfl⟩)
  | setVerbose b =>
    simp only [doSetVerbose] at h
    split_ifs at h with hi
    cases h
    exact ⟨hi, rfl⟩
  | start =>
    simp only [doStart] at h
    split_ifs at h with hf
    refine ⟨not_not.mp hf, ?_⟩
    cases hr : s.rs with
    | initializing => simp only [hr] at h; cases h; exact .inl ⟨rfl, rfl⟩
    | running => simp only [hr] at h; cases h
    | stopped => simp only [hr] at h; cases h; exact .inr ⟨rfl, rfl⟩

/-- No step of a run. -/
theorem run_zero (s : State) : Host.Core.run core 0 s = .next s := rfl

/-- The first step of a run. -/
theorem run_succ {k : Nat} (h : step s = .next t) : Host.Core.run core (k + 1) s = Host.Core.run core k t := by
  have h' : core.step s = .next t := h
  simp only [Host.Core.run, h']

end

end Sys2Proof.Machine
end

