-- ==== Sys2Proof/Tests/Slice0.lean ====
section
/-!
SUPPORT. The model's own tests. Expected results are those of spec/95_test_vectors.md (the section is named at each group), never the
model's own answers. The witnesses at the end show that the hypotheses of each statement can be met, at the boundary where there is
one.
-/

namespace Sys2Proof.Tests

open Sys2Proof.Machine

/-- The common start state of 95_test_vectors.md section 2.3 (N = 16, sb = 4), with the word at the pc and other words above it. -/
def vec (pc : Nat) (sp : Int) (word : Word) (cells : List (Nat × Word)) : State where
  mem := Memory.ofCells 16 ((pc, word) :: cells)
  memSize := 16
  pc := pc
  sp := sp
  sb := 4
  rs := .running
  verbose := false
  fault := none
  out := []
  script := []
  replies := []

/-- The next state of an answer. -/
def nextOf : Answer → Option State
  | .next s => some s
  | .fault _ => none
  | .refused _ => none

/-- The columns of the section 2.4 to 2.8 tables: pc, sp, run state, fault. -/
def columns (a : Answer) : Option (Nat × Int × RunState × Option ErrorName) :=
  (nextOf a).map fun s => (s.pc, s.sp, s.rs, s.fault)

/-- The word at an address of the next state. -/
def wordAt (a : Nat) (x : Answer) : Option Word := (nextOf x).map fun s => s.mem.read a

/-! Checks on syntax: what each check refuses. -/

theorem test_wf_construct_zero_refused : (Command.construct 0 []).wf = false := by decide
theorem test_wf_construct_too_large_refused : (Command.construct 2147483648 []).wf = false := by decide
theorem test_wf_construct_bounds : (Command.construct 1 []).wf = true ∧ (Command.construct 2147483647 []).wf = true := by decide
theorem test_noncanonical_refused :
    [Instr.nop 5#24, .mult 5#24, .ret 5#24, .stop 5#24, .print 5#24].map Instr.canonical = [false, false, false, false, false] := by
  decide
theorem test_canonical_argument_used : (Instr.call 5#24).canonical = true ∧ (Instr.push 5#24).canonical = true := by decide

/-! Decoding: every constructor by a word written out bit by bit from 30_encoding.md R76, and the words of section 2.1. -/

theorem test_decode_nop : decodeWord 0b00000000101010111100110111101111#32 = .instr (.nop 0xABCDEF#24) := by decide
theorem test_decode_mult : decodeWord 0b00000001000000000000000000000000#32 = .instr (.mult 0#24) := by decide
theorem test_decode_call : decodeWord 0b00000010000000000000000000110010#32 = .instr (.call 50#24) := by decide
theorem test_decode_ret : decodeWord 0b00000100000000000000000000000000#32 = .instr (.ret 0#24) := by decide
theorem test_decode_stop : decodeWord 0b00000101000100100011010001010110#32 = .instr (.stop 0x123456#24) := by decide
theorem test_decode_print : decodeWord 0b00000110000000000000000000000000#32 = .instr (.print 0#24) := by decide
theorem test_decode_push : decodeWord 0b00000111100000000000000000000000#32 = .instr (.push 0x800000#24) := by decide
theorem test_decode_reserved : decodeWord 0x03000000#32 = .invalid 3#8 := by decide
theorem test_decode_above_table :
    decodeWord 0x08000001#32 = .invalid 8#8 ∧ decodeWord 0xFFFFFFFF#32 = .invalid 255#8 := by decide
theorem test_encode_truncates :
    encode .push (-1) = 0x07FFFFFF#32 ∧ encode .push 0x1000000 = 0x07000000#32 ∧
      encode .call 0x1000032 = 0x02000032#32 ∧ encode .stop 5 = 0x05000005#32 := by decide
theorem test_table_word : decodeTableWord 32 0x070003F1 = some (.push 1009#24) := by decide
theorem test_table_word_reserved : decodeTableWord 32 0x03000000 = none := by decide

/-! Dec (section 2.2). -/

theorem test_dec_positive :
    dec 0#32 = "0" ∧ dec 1009#32 = "1009" ∧ dec 0x00FFFFFF#32 = "16777215" ∧ dec 0x7FFFFFFF#32 = "2147483647" := by decide
theorem test_dec_negative :
    dec 0x80000000#32 = "-2147483648" ∧ dec 0xFE000001#32 = "-33554431" ∧ dec 0xFFFFFFFF#32 = "-1" := by decide

/-! One step of each instruction (sections 2.4 to 2.6). -/

theorem test_nop : columns (step (vec 2 6 0x00ABCDEF#32 [])) = some (3, 6, .running, none) := by decide
theorem test_nop_last_word :
    columns (step (vec 15 6 0#32 [])) = some (15, 6, .running, some .programCounterOverflow) := by decide
theorem test_stop : columns (step (vec 2 6 0x05123456#32 [])) = some (2, 6, .stopped, none) := by decide
theorem test_stop_last_word : columns (step (vec 15 6 0x05000000#32 [])) = some (15, 6, .stopped, none) := by decide
theorem test_mult_wraps :
    let a := step (vec 2 6 0x01000000#32 [(4, 0xFFFFFF#32), (5, 0xFFFFFF#32)])
    columns a = some (3, 5, .running, none) ∧ wordAt 4 a = some 0xFE000001#32 ∧ wordAt 5 a = some 0xFFFFFF#32 := by decide
theorem test_mult_one_word :
    let a := step (vec 2 5 0x01000000#32 [(4, 101#32)])
    columns a = some (2, 3, .running, some .stackUnderflow) ∧ wordAt 4 a = some 101#32 := by decide
theorem test_call : columns (step (vec 2 6 0x0200000F#32 [])) = some (15, 6, .running, none) := by decide
theorem test_call_out :
    columns (step (vec 2 6 0x02000010#32 [])) = some (2, 6, .running, some .programCounterOverflow) := by decide
theorem test_ret : columns (step (vec 2 6 0x04000000#32 [(5, 7#32)])) = some (7, 5, .running, none) := by decide
theorem test_ret_bit31 :
    columns (step (vec 2 6 0x04000000#32 [(5, 0x80000000#32)])) =
      some (2, 5, .running, some .programCounterOverflow) := by decide
theorem test_print_negative :
    let a := step (vec 2 6 0x06000000#32 [(5, 0xFFFFFFFF#32)])
    columns a = some (3, 5, .running, none) ∧ (nextOf a).map State.out = some [.output "-1"] := by decide
theorem test_print_last_word :
    let a := step (vec 15 6 0x06000000#32 [(5, 5#32)])
    columns a = some (15, 5, .running, some .programCounterOverflow) ∧ (nextOf a).map State.out = some [.output "5"] := by decide
theorem test_push_last_slot :
    let a := step (vec 2 14 0x07FFFFFF#32 [])
    columns a = some (3, 15, .running, none) ∧ wordAt 14 a = some 0x00FFFFFF#32 := by decide
theorem test_push_full :
    let a := step (vec 15 15 0x07000001#32 [])
    columns a = some (15, 15, .running, some .stackOverflow) ∧ wordAt 15 a = some 0x07000001#32 := by decide

/-! Faults before the instruction is known (section 2.8), and the order of a step's trace (40_execution_engine.md R99). -/

theorem test_illegal_word :
    columns (step (vec 15 6 0xFFFFFFFF#32 [])) = some (15, 6, .running, some .invalidInstruction) := by decide
theorem test_fetch_at_n :
    columns (step { vec 15 16 0#32 [] with pc := 16, sb := 16 }) =
      some (16, 16, .running, some .fetchAddressOutOfRange) := by decide
theorem test_verbose_mult :
    (nextOf (step { vec 2 6 0x01000000#32 [(4, 101#32), (5, 10#32)] with verbose := true })).map State.out =
      some [.debugPop 5 10#32, .debugPop 4 101#32, .debugPush 4 1010#32, .debugPcAdvance 3] := by decide

/-! Host commands (section 2.7). -/

/-- A machine of four words with a script: rows 1 to 11 of section 2.7, the one row after each other. -/
def row (pc sb : Nat) (rs : RunState) (c : Command) : State :=
  { State.reset with memSize := 4, pc := pc, sb := sb, rs := rs, script := [c] }

/-- The columns of the section 2.7 table: last reply, pc, sp, sb, run state. -/
def hostColumns (a : Answer) : Option (List Reply × Nat × Int × Nat × RunState) :=
  (nextOf a).map fun s => (s.replies, s.pc, s.sp, s.sb, s.rs)

theorem test_insert_last_word :
    let a := step (row 3 3 .initializing (.insert .stop 5#32))
    hostColumns a = some ([.ok], 4, 0, 4, .initializing) ∧ wordAt 3 a = some 0x05000005#32 := by decide
theorem test_insert_at_n :
    hostColumns (step (row 4 4 .initializing (.insert .nop 0#32))) =
      some ([.error .insertAddressOutOfRange], 4, 0, 4, .initializing) := by decide
theorem test_insert_state_first :
    hostColumns (step (row 4 4 .stopped (.insert .nop 0#32))) =
      some ([.error .invalidInsertState], 4, 0, 4, .stopped) := by decide
theorem test_set_address_n :
    hostColumns (step (row 4 4 .initializing (.setAddress 4#32))) =
      some ([.error .programCounterOverflow], 4, 0, 4, .initializing) := by decide
theorem test_start_snaps :
    hostColumns (step (row 3 4 .initializing .start)) = some ([], 3, 4, 4, .running) := by decide
theorem test_start_stopped :
    hostColumns (step (row 3 4 .stopped .start)) = some ([.ok], 3, 0, 4, .stopped) := by decide
theorem test_insert_keeps_sb :
    hostColumns (step (row 0 3 .initializing (.insert .nop 0#32))) = some ([.ok], 1, 0, 3, .initializing) := by decide
theorem test_construct_memory :
    wordAt 5 (step (row 3 4 .stopped (.construct 6 [(5, 0x06000000#32), (6, 1#32)]))) = some 0x06000000#32 := by decide

/-! A word placed for the next fetch runs as the first instruction after reset (log 23). -/

theorem test_with_fetch_word :
    columns (step (State.reset.withFetchWord 32 0x070003F1)) = some (1, 1, .running, none) ∧
    columns (step (State.reset.withFetchWord 32 0x04000000)) = some (0, -1, .running, some .stackUnderflow) := by decide

/-! Witnesses: the hypotheses of each statement can be met. -/

/-- States of the invariant's kind: a run in progress on the common start state. -/
theorem vec_inv : (vec 2 6 0x07000001#32 []).Inv where
  size := by decide
  memWf := by decide
  memWithin := by decide
  sbBound := by decide
  pcBound := by decide
  initializing := by decide
  noFault := fun _ _ => by unfold State.stackInBounds; decide
  underflow := by decide
  otherFault := fun e h => by simp [vec] at h
  faultRunning := by decide
  notInsertError := by decide
  pcAfterRun := by decide

theorem witness_DecodeAndEncodeAgree : decodeWord 0x07FFFFFF#32 = .instr (.push 0xFFFFFF#24) := by decide
theorem witness_LookupKnowsTheClosedTable :
    let s := vec 15 6 0x08000000#32 []
    s.enabled ∧ s.pc < s.memSize ∧ lookup (decode (s.mem.read s.pc)).1 = none := by decide
theorem witness_UnusedArgumentIsIgnored : (Instr.nop 5#24).opcode ≠ .call ∧ (Instr.nop 5#24).opcode ≠ .push := by decide
theorem witness_StepRunsDecodedInstruction :
    let s := vec 15 6 0x05000000#32 []
    s.enabled ∧ s.pc < s.memSize ∧ decodeWord (s.mem.read s.pc) = .instr (.stop 0#24) := by decide
theorem witness_StepTakesFetchFault :
    let s := { vec 15 6 0#32 [] with pc := 16 }
    s.enabled ∧ s.memSize ≤ s.pc := by decide
theorem witness_StepTakesDecodeFault :
    let s := vec 15 6 0x03000000#32 []
    s.enabled ∧ s.pc < s.memSize ∧ ∃ b, decodeWord (s.mem.read s.pc) = .invalid b :=
  ⟨by decide, by decide, 3#8, by decide⟩
theorem witness_NoStepOutsideARunWithoutHost :
    (let s := { vec 2 6 0#32 [] with fault := some .stackOverflow }; s.script = [] ∧ s.fault = some .stackOverflow) ∧
    (let s := { vec 2 6 0#32 [] with rs := .stopped }; s.script = [] ∧ s.fault = none ∧ s.rs = .stopped) ∧
    (State.reset.script = [] ∧ State.reset.fault = none ∧ State.reset.rs = .initializing) := by decide
theorem witness_HostPresentsOneCommandOutsideRuns :
    (let s := row 0 0 .initializing .start; ¬ s.enabled ∧ s.script = .start :: []) ∧ (vec 2 6 0#32 []).enabled := by decide
theorem witness_PlacedWordIsExecutedNext : (vec 2 6 0x07000001#32 []).Inv := vec_inv
theorem witness_NopAdvances : (vec 14 6 0#32 []).pc + 1 < (vec 14 6 0#32 []).memSize := by decide
theorem witness_StopHalts : 0x05123456#32 &&& 0xFF000000#32 = 0x05000000#32 := by decide
theorem witness_MultPushesProduct :
    let s := vec 14 6 0x01000000#32 [(4, 0x10000#32), (5, 0x8000#32)]
    (s.sb : Int) + 2 ≤ s.sp ∧ s.sp ≤ s.memSize ∧ s.pc + 1 < s.memSize ∧ 0x8000#32 = s.mem.read (s.sp - 1).toNat ∧
      0x10000#32 = s.mem.read (s.sp - 2).toNat ∧
      (0x80000000#32).toNat = (0x8000#32).toNat * (0x10000#32).toNat % 2 ^ 32 := by decide
theorem witness_CallMovesPcToArgument : (15#24 : Arg).toNat < (vec 2 6 0x0200000F#32 []).memSize := by decide
theorem witness_RetMovesPcToPoppedWord :
    let s := vec 2 5 0x04000000#32 [(4, 15#32)]
    (s.sb : Int) < s.sp ∧ s.sp ≤ s.memSize ∧ 15#32 = s.mem.read (s.sp - 1).toNat ∧ (15#32).toNat < s.memSize := by decide
theorem witness_PrintEmitsPoppedWord :
    let s := vec 14 5 0x06000000#32 [(4, 7#32)]
    (s.sb : Int) < s.sp ∧ s.sp ≤ s.memSize ∧ s.pc + 1 < s.memSize ∧ 7#32 = s.mem.read (s.sp - 1).toNat := by decide
theorem witness_PushPushesArgument :
    let s := vec 3 14 0x07FFFFFF#32 []
    0 ≤ s.sp ∧ s.sp + 1 < s.memSize ∧ s.pc + 1 < s.memSize ∧ (0x00FFFFFF#32).toNat = (0xFFFFFF#24 : Arg).toNat := by decide
theorem witness_AdvanceFaultsInLastWordAfterTheEffect :
    let s := vec 15 6 0#32 [(4, 3#32), (5, 5#32)]
    s.memSize ≤ s.pc + 1 ∧ (s.sb : Int) + 2 ≤ s.sp ∧ s.sp + 1 < s.memSize ∧ 5#32 = s.mem.read (s.sp - 1).toNat ∧
      3#32 = s.mem.read (s.sp - 2).toNat ∧ (15#32).toNat = (5#32).toNat * (3#32).toNat % 2 ^ 32 ∧
      (9#32).toNat = (9#24 : Arg).toNat := by decide
theorem witness_JumpsOutOfMemoryFault :
    let s := vec 2 5 0x04000000#32 [(4, 16#32)]
    s.memSize ≤ (16#24 : Arg).toNat ∧ (s.sb : Int) < s.sp ∧ s.sp ≤ s.memSize ∧ 16#32 = s.mem.read (s.sp - 1).toNat ∧
      s.memSize ≤ (16#32).toNat := by decide
theorem witness_PopsOfTheEmptyStackFault :
    (vec 2 4 0#32 []).sp ≤ (vec 2 4 0#32 []).sb ∧ (vec 2 5 0#32 []).sp = ((vec 2 5 0#32 []).sb : Int) + 1 ∧
      (vec 2 5 0#32 []).sp ≤ (vec 2 5 0#32 []).memSize := by decide
theorem witness_PushOnTheFullStackFaults : ((vec 2 15 0#32 []).memSize : Int) - 1 ≤ (vec 2 15 0#32 []).sp := by decide
theorem witness_InstructionsRaiseOnlyTheirFaults :
    ∃ t, exec (.call 16#24) (vec 2 6 0#32 []) = .next t ∧ (vec 2 6 0#32 []).fault = none ∧
      t.fault = some .programCounterOverflow := ⟨_, rfl, rfl, rfl⟩
theorem witness_FrameOfInstructionsThatStoreNothing :
    ∃ t, exec (.ret 0#24) (vec 2 6 0#32 []) = .next t ∧ (Instr.ret 0#24).opcode ≠ .push ∧ (Instr.ret 0#24).opcode ≠ .mult :=
  ⟨_, rfl, by decide, by decide⟩
theorem witness_FrameOfInstructionsThatStore :
    (∃ t, exec (.push 1#24) (vec 2 14 0#32 []) = .next t ∧ (14 : Int) + 1 < (vec 2 14 0#32 []).memSize) ∧
    (∃ t, exec (.push 1#24) (vec 2 15 0#32 []) = .next t ∧ ((vec 2 15 0#32 []).memSize : Int) ≤ 15 + 1) ∧
    (∃ t, exec (.mult 0#24) (vec 2 4 0#32 []) = .next t ∧ (4 : Int) ≤ (vec 2 4 0#32 []).sb) ∧
    (∃ t, exec (.mult 0#24) (vec 2 5 0#32 []) = .next t ∧ (5 : Int) = (vec 2 5 0#32 []).sb + 1) ∧
    ∃ t, exec (.mult 0#24) (vec 2 6 0#32 []) = .next t ∧ ((vec 2 6 0#32 []).sb : Int) + 2 ≤ 6 :=
  ⟨⟨_, rfl, by decide⟩, ⟨_, rfl, by decide⟩, ⟨_, rfl, by decide⟩, ⟨_, rfl, by decide⟩, _, rfl, by decide⟩
theorem witness_OnlyCallAndRetJump :
    ∃ t, exec (.nop 0#24) (vec 14 6 0#32 []) = .next t ∧ (vec 14 6 0#32 []).fault = none ∧ t.fault = none ∧
      (Instr.nop 0#24).opcode ≠ .call ∧ (Instr.nop 0#24).opcode ≠ .ret := ⟨_, rfl, rfl, rfl, by decide, by decide⟩
theorem witness_PrintIsTheOnlyOutput :
    ∃ t, exec (.print 0#24) (vec 15 5 0#32 [(4, 7#32)]) = .next t ∧ outputTexts t.out = ["7"] := ⟨_, rfl, by decide⟩
theorem witness_QuietInstructionsEmitNoTrace :
    ∃ t, exec (.print 0#24) (vec 2 5 0#32 [(4, 7#32)]) = .next t ∧ (vec 2 5 0#32 [(4, 7#32)]).verbose = false := ⟨_, rfl, rfl⟩
theorem witness_TemplateKeepsItsOrder :
    (∃ t, advancePC (vec 14 6 0#32 []) = .done () t) ∧
    (∃ t, advancePC (vec 15 6 0#32 []) = .raise .programCounterOverflow t) ∧
    (∃ v t w u, popStack (vec 2 6 0#32 []) = .done v t ∧ popStack t = .done w u) ∧
    (∃ v t u, popStack (vec 2 5 0#32 []) = .done v t ∧ popStack t = .raise .stackUnderflow u) ∧
    ∃ t, popStack (vec 2 4 0#32 []) = .raise .stackUnderflow t :=
  ⟨⟨_, rfl⟩, ⟨_, rfl⟩, ⟨_, _, _, _, rfl, rfl⟩, ⟨_, _, _, rfl, rfl⟩, _, rfl⟩
theorem witness_PushThenPopGivesTheWordBack :
    let s := vec 2 14 0#32 []
    s.mem.wf = true ∧ (s.sb : Int) ≤ s.sp ∧ s.sp + 1 < s.memSize := by decide
theorem witness_DecimalTextIsShortestSigned :
    (0#32 : Word).toInt = 0 ∧ 0 < (0x7FFFFFFF#32 : Word).toInt ∧ (0x80000000#32 : Word).toInt < 0 := by decide
theorem witness_ConstructSetsResetValues :
    ¬ State.reset.enabled ∧ (1 ≤ 1 ∧ 1 ≤ 2 ^ 31 - 1) ∧ (1 ≤ 2147483647 ∧ 2147483647 ≤ 2 ^ 31 - 1) ∧
      ¬ (1 ≤ 0 ∧ 0 ≤ 2 ^ 31 - 1) ∧ ¬ (1 ≤ 2147483648 ∧ 2147483648 ≤ 2 ^ 31 - 1) := by decide
theorem witness_SetAddressMovesPcOrReplies :
    let s := row 0 0 .initializing .start
    ¬ s.enabled ∧ s.rs = .initializing ∧ (3#32 : Word).toNat < s.memSize ∧ s.memSize ≤ (4#32 : Word).toNat ∧
      (row 0 0 .stopped .start).rs ≠ .initializing ∧ ¬ (row 0 0 .stopped .start).enabled := by decide
theorem witness_InsertWritesTheInstruction :
    ¬ (row 3 0 .initializing .start).enabled ∧ (row 3 0 .initializing .start).rs = .initializing ∧
      (row 3 0 .initializing .start).pc < (row 3 0 .initializing .start).memSize ∧
      (row 4 0 .initializing .start).memSize ≤ (row 4 0 .initializing .start).pc ∧
      (row 3 0 .stopped .start).rs ≠ .initializing ∧
      (0x02000032#32 : Word).toNat = Opcode.call.code.toNat * 2 ^ 24 + (0x1000032#32 : Word).toNat % 2 ^ 24 := by decide
theorem witness_RunStateTransitionEffects : State.reset.rs = .initializing ∧ State.reset.fault = none := by decide
theorem witness_SetVerboseAndLateStart :
    (¬ State.reset.enabled ∧ State.reset.rs = .initializing) ∧
    (let s := row 0 0 .stopped .start; ¬ s.enabled ∧ s.rs ≠ .initializing ∧ s.rs = .stopped ∧ s.fault = none) ∧
    (let s := { vec 2 6 0#32 [] with fault := some .stackOverflow }; ¬ s.enabled ∧ s.fault = some .stackOverflow) := by decide
theorem witness_FailedCommandsChangeNothing :
    ∃ t, performCommand (.setAddress 4#32) (row 0 0 .initializing .start) = .next t ∧
      t.replies = (row 0 0 .initializing .start).replies ++ [.error .programCounterOverflow] := ⟨_, rfl, rfl⟩
theorem witness_ConstructionStopsAtFirstError :
    ∃ u t, construction [.setVerbose true] (row 0 0 .initializing .start) = .next u ∧
      u.replies = (row 0 0 .initializing .start).replies ++ List.replicate [Command.setVerbose true].length .ok ∧
      performCommand (.setAddress 4#32) u = .next t ∧ t.replies = u.replies ++ [.error .programCounterOverflow] :=
  ⟨_, _, rfl, rfl, rfl, rfl⟩
theorem witness_EveryStepKeepsTheInvariant :
    ∃ t, (vec 2 6 0x07000001#32 []).Inv ∧ step (vec 2 6 0x07000001#32 []) = .next t := ⟨_, vec_inv, rfl⟩
theorem witness_CompletedStepLeavesPcInMemory :
    ∃ t, (vec 14 6 0#32 []).enabled ∧ step (vec 14 6 0#32 []) = .next t ∧ t.fault = none := ⟨_, by decide, rfl, by decide⟩
theorem witness_EngineNeverWritesTheProgramRegion :
    ∃ t, (vec 2 6 0x07000001#32 []).Inv ∧ (vec 2 6 0x07000001#32 []).enabled ∧ step (vec 2 6 0x07000001#32 []) = .next t ∧
      t.mem.read 6 ≠ (vec 2 6 0x07000001#32 []).mem.read 6 := ⟨_, vec_inv, by decide, rfl, by decide⟩
theorem witness_RunEndsOnceWithItsReply :
    (∃ t, step (vec 14 6 0#32 []) = .next t ∧ t.enabled) ∧ (∃ t, step (vec 15 6 0x05000000#32 []) = .next t ∧ t.rs = .stopped) ∧
      (∃ t, step (vec 15 6 0#32 []) = .next t ∧ t.fault ≠ none) ∧ (vec 15 6 0#32 []).enabled :=
  ⟨⟨_, rfl, by decide⟩, ⟨_, rfl, by decide⟩, ⟨_, rfl, by decide⟩, by decide⟩
theorem witness_LatchIsClearedOnlyByConstruct :
    let s := { vec 2 6 0#32 [] with fault := some .stackOverflow, script := [.insert .nop 0#32] }
    s.fault = some .stackOverflow ∧ ∃ t, step s = .next t := ⟨rfl, _, rfl⟩
theorem witness_RunStateOnlyMovesForward : ∃ t, step (row 0 0 .initializing .start) = .next t ∧ t.rs = .running := ⟨_, rfl, rfl⟩
theorem witness_EventsAreNeverWithdrawn :
    ∃ t, step (vec 2 5 0x06000000#32 [(4, 7#32)]) = .next t ∧ t.out = [.output "7"] := ⟨_, rfl, by decide⟩
theorem witness_NopsAreWalkedToTheLastWord :
    let s := { State.reset with memSize := 3, rs := .running }
    s.enabled ∧ s.pc < s.memSize ∧ ∀ a, s.pc ≤ a → a < s.memSize → ∃ arg, decodeWord (s.mem.read a) = .instr (.nop arg) :=
  ⟨by decide, by decide, fun _ _ _ => ⟨0#24, (by decide : decodeWord 0#32 = .instr (.nop 0#24))⟩⟩
theorem witness_CallToItselfNeverEnds :
    let s := vec 2 6 0x02000002#32 []
    s.enabled ∧ s.pc < s.memSize ∧ decodeWord (s.mem.read s.pc) = .instr (.call 2#24) ∧ (2#24 : Arg).toNat = s.pc := by decide
theorem witness_VerboseHasNoEffectOnResults :
    let s := vec 2 6 0x07000001#32 []
    let t := { s with verbose := true, out := [.debugPcMove 2] }
    s ≠ t ∧ s.untraced = t.untraced := by decide
theorem witness_FaultCodeNamesTheFault :
    (vec 2 6 0#32 []).faultCode = (vec 3 6 0#32 []).faultCode ∧
      State.fault { vec 2 6 0#32 [] with fault := some .fetchAddressOutOfRange } = some .fetchAddressOutOfRange := by decide

end Sys2Proof.Tests
end

/-!
The state of the machine (10_state.md): what every instruction keeps and how it ends, the frames of the instructions, the invariant
of reachable states, and what any step can do to the latch, the run state and the event stream.
-/

namespace Sys2Proof.Machine

/-! What every instruction keeps, and how it ends. -/

/-- `u` may differ from `s` in memory and in the stack pointer, and has events appended: what the pops, the pushes and the output of
an instruction do before its end (40_execution_engine.md R97). -/
structure State.Keeps (s u : State) : Prop where
  memSize : u.memSize = s.memSize
  pc : u.pc = s.pc
  sb : u.sb = s.sb
  rs : u.rs = s.rs
  verbose : u.verbose = s.verbose
  fault : u.fault = s.fault
  script : u.script = s.script
  out : s.out <+: u.out

section
variable {s u : State}

theorem State.Keeps.refl (s : State) : s.Keeps s := ⟨rfl, rfl, rfl, rfl, rfl, rfl, rfl, List.prefix_rfl⟩

theorem State.Keeps.withSp (h : s.Keeps u) (x : Int) : s.Keeps { u with sp := x } :=
  ⟨h.memSize, h.pc, h.sb, h.rs, h.verbose, h.fault, h.script, h.out⟩

theorem State.Keeps.popped (h : s.Keeps u) : s.Keeps u.popped :=
  ⟨h.memSize, h.pc, h.sb, h.rs, h.verbose, h.fault, h.script, h.out.trans (List.prefix_append _ _)⟩

theorem State.Keeps.pushed (h : s.Keeps u) (v : Word) : s.Keeps (u.pushed v) :=
  ⟨h.memSize, h.pc, h.sb, h.rs, h.verbose, h.fault, h.script, h.out.trans (List.prefix_append _ _)⟩

theorem State.Keeps.emit (h : s.Keeps u) (e : Event) : s.Keeps (u.emit e) :=
  ⟨h.memSize, h.pc, h.sb, h.rs, h.verbose, h.fault, h.script, h.out.trans (List.prefix_append _ _)⟩

end

/-- The four ends of an instruction whose operation left `u`: the advance, the jump of CALL and RET, STOP, or a raise. -/
inductive ExecEnd (i : Instr) (u : State) : State → Prop where
  | advance (hop : i.opcode ≠ .call ∧ i.opcode ≠ .ret ∧ i.opcode ≠ .stop) (hpc : u.pc + 1 < u.memSize) :
      ExecEnd i u u.advanced
  | jump (hop : i.opcode = .call ∨ i.opcode = .ret) (a : Nat) (ha : a < u.memSize) : ExecEnd i u (u.moved a)
  | stop (hop : i.opcode = .stop) : ExecEnd i u (stopRun u)
  | raise (e : ErrorName) (he : e ∈ possibleFaults i) : ExecEnd i u (takeFault e u)

section
variable {i : Instr} {s t : State}

/-- STOP raises nothing (41_system_nop_stop.md R111). -/
theorem opcode_ne_stop_of_mem_possibleFaults {e : ErrorName} (he : e ∈ possibleFaults i) : i.opcode ≠ .stop := by
  intro hop
  cases i with
  | stop arg => simp [possibleFaults] at he
  | _ => cases hop

/-- Every instruction is an operation on memory, the stack and the event stream, and then one of the four ends. -/
theorem exec_ends (h : exec i s = .next t) : ∃ u, s.Keeps u ∧ ExecEnd i u t := by
  have hs := State.Keeps.refl s
  cases i with
  | nop arg =>
    rcases execNop_cases h with ⟨hpc, rfl⟩ | ⟨-, rfl⟩
    · exact ⟨s, hs, .advance (by simp [Instr.opcode]) hpc⟩
    · exact ⟨s, hs, .raise _ (by simp [possibleFaults])⟩
  | mult arg =>
    rcases execMult_cases h with ⟨-, rfl⟩ | ⟨-, -, rfl⟩ | ⟨-, -, ⟨hpc, rfl⟩ | ⟨-, rfl⟩⟩
    · exact ⟨_, hs.withSp _, .raise _ (by simp [possibleFaults])⟩
    · exact ⟨_, hs.popped.withSp _, .raise _ (by simp [possibleFaults])⟩
    · exact ⟨_, hs.popped.popped.pushed _, .advance (by simp [Instr.opcode]) hpc⟩
    · exact ⟨_, hs.popped.popped.pushed _, .raise _ (by simp [possibleFaults])⟩
  | call arg =>
    rcases execCall_cases h with ⟨ha, rfl⟩ | ⟨-, rfl⟩
    · exact ⟨s, hs, .jump (by simp [Instr.opcode]) _ ha⟩
    · exact ⟨s, hs, .raise _ (by simp [possibleFaults])⟩
  | ret arg =>
    rcases execRet_cases h with ⟨-, rfl⟩ | ⟨-, -, ⟨ha, rfl⟩ | ⟨-, rfl⟩⟩
    · exact ⟨_, hs.withSp _, .raise _ (by simp [possibleFaults])⟩
    · exact ⟨_, hs.popped, .jump (by simp [Instr.opcode]) _ ha⟩
    · exact ⟨_, hs.popped, .raise _ (by simp [possibleFaults])⟩
  | stop arg =>
    obtain rfl := execStop_cases h
    exact ⟨s, hs, .stop rfl⟩
  | print arg =>
    rcases execPrint_cases h with ⟨-, rfl⟩ | ⟨-, -, ⟨hpc, rfl⟩ | ⟨-, rfl⟩⟩
    · exact ⟨_, hs.withSp _, .raise _ (by simp [possibleFaults])⟩
    · exact ⟨_, hs.popped.emit _, .advance (by simp [Instr.opcode]) hpc⟩
    · exact ⟨_, hs.popped.emit _, .raise _ (by simp [possibleFaults])⟩
  | push arg =>
    rcases execPush_cases h with ⟨-, rfl⟩ | ⟨-, -, ⟨hpc, rfl⟩ | ⟨-, rfl⟩⟩
    · exact ⟨s, hs, .raise _ (by simp [possibleFaults])⟩
    · exact ⟨_, hs.pushed _, .advance (by simp [Instr.opcode]) hpc⟩
    · exact ⟨_, hs.pushed _, .raise _ (by simp [possibleFaults])⟩

/-- What every instruction does to the fields other than memory, the pc and the stack pointer, completing or faulting (10_state.md
R36). -/
structure ExecFrame (i : Instr) (s t : State) : Prop where
  memSize : t.memSize = s.memSize
  sb : t.sb = s.sb
  verbose : t.verbose = s.verbose
  script : t.script = s.script
  rs : t.rs = if i.opcode = .stop then .stopped else s.rs
  fault : t.fault = s.fault ∨ ∃ e ∈ possibleFaults i, t.fault = some e ∧ t.pc = s.pc
  out : s.out <+: t.out

theorem exec_frame (h : exec i s = .next t) : ExecFrame i s t := by
  obtain ⟨u, hu, hend⟩ := exec_ends h
  cases hend with
  | advance hop hpc =>
    exact ⟨hu.memSize, hu.sb, hu.verbose, hu.script, by simp [hop, hu.rs], .inl hu.fault,
      hu.out.trans (List.prefix_append _ _)⟩
  | jump hop a ha =>
    have hns : i.opcode ≠ .stop := by rcases hop with hc | hr <;> simp [*]
    exact ⟨hu.memSize, hu.sb, hu.verbose, hu.script, by simp [hns, hu.rs], .inl hu.fault,
      hu.out.trans (List.prefix_append _ _)⟩
  | stop hop => exact ⟨hu.memSize, hu.sb, hu.verbose, hu.script, by simp [hop], .inl hu.fault, hu.out⟩
  | raise e he =>
    have hns := opcode_ne_stop_of_mem_possibleFaults he
    exact ⟨hu.memSize, hu.sb, hu.verbose, hu.script, by simp [hns, hu.rs], .inr ⟨e, he, rfl, hu.pc⟩, hu.out⟩

/-- An instruction fetched from memory leaves the pc in memory (10_state.md R33 item 2). -/
theorem exec_pc_lt (h : exec i s = .next t) (hpc : s.pc < s.memSize) : t.pc < t.memSize := by
  obtain ⟨u, hu, hend⟩ := exec_ends h
  have hupc : u.pc < u.memSize := by rw [hu.pc, hu.memSize]; exact hpc
  cases hend with
  | advance hop hnext => exact hnext
  | jump hop a ha => exact ha
  | stop hop => exact hupc
  | raise e he => exact hupc

/-- Settles O29: of the four ends of an instruction, the advance and STOP are the ones left. -/
theorem onlyCallAndRetJump : Obligations.OnlyCallAndRetJump := by
  intro i s t h _ hfault hcall hret
  obtain ⟨u, hu, hend⟩ := exec_ends h
  cases hend with
  | advance hop hpc => simp [hop, hu.pc]
  | jump hop a ha => exact absurd hop (not_or.mpr ⟨hcall, hret⟩)
  | stop hop => simp [hop, hu.pc]
  | raise e he => simp at hfault

/-! The frames of the instructions: memory and the stack pointer. -/

/-- Only PUSH and MULT store (40_execution_engine.md R103); of the others RET and PRINT move the stack pointer by their one pop,
failed or not. -/
theorem exec_of_no_store (h : exec i s = .next t) (hpush : i.opcode ≠ .push) (hmult : i.opcode ≠ .mult) :
    t.mem = s.mem ∧ t.sp = if i.opcode = .ret ∨ i.opcode = .print then s.sp - 1 else s.sp := by
  cases i with
  | nop arg => rcases execNop_cases h with ⟨-, rfl⟩ | ⟨-, rfl⟩ <;> exact ⟨rfl, rfl⟩
  | mult arg => exact absurd rfl hmult
  | call arg => rcases execCall_cases h with ⟨-, rfl⟩ | ⟨-, rfl⟩ <;> exact ⟨rfl, rfl⟩
  | ret arg => rcases execRet_cases h with ⟨-, rfl⟩ | ⟨-, -, ⟨-, rfl⟩ | ⟨-, rfl⟩⟩ <;> exact ⟨rfl, rfl⟩
  | stop arg => rw [execStop_cases h]; exact ⟨rfl, rfl⟩
  | print arg => rcases execPrint_cases h with ⟨-, rfl⟩ | ⟨-, -, ⟨-, rfl⟩ | ⟨-, rfl⟩⟩ <;> exact ⟨rfl, rfl⟩
  | push arg => exact absurd rfl hpush

/-- Settles O27: the frame every instruction has, and what the five that store nothing do to memory and sp. -/
theorem frameOfInstructionsThatStoreNothing : Obligations.FrameOfInstructionsThatStoreNothing := by
  intro i s t hpush hmult h
  have hframe := exec_frame h
  obtain ⟨events, hout⟩ := hframe.out
  obtain ⟨hmem, hsp⟩ := exec_of_no_store h hpush hmult
  exact ⟨fun a => by rw [hmem], hframe.memSize, hframe.sb, hframe.verbose, hframe.script, hsp, hframe.rs, hframe.fault,
    events, hout.symm⟩

end

section
variable {s t : State} {arg : Arg}

/-- PUSH without room is a fault with nothing done (44_stack_io_print_push.md R131). -/
theorem execPush_of_full (h : execPush arg s = .next t) (hfull : (s.memSize : Int) ≤ s.sp + 1) :
    t = takeFault .stackOverflow s := by
  rcases execPush_cases h with ⟨-, ht⟩ | ⟨-, hroom, -⟩
  · exact ht
  · omega

/-- PUSH with room stores its argument at sp and steps sp, whether or not its advance then faults. -/
theorem execPush_of_room (h : execPush arg s = .next t) (hroom : s.sp + 1 < s.memSize) :
    0 ≤ s.sp ∧ t.mem = s.mem.write s.sp.toNat (argWord arg) ∧ t.sp = s.sp + 1 := by
  rcases execPush_cases h with ⟨hfull, -⟩ | ⟨h0, -, ⟨-, rfl⟩ | ⟨-, rfl⟩⟩
  · omega
  · exact ⟨h0, rfl, rfl⟩
  · exact ⟨h0, rfl, rfl⟩

/-- MULT on the empty stack is a fault of its first pop (42_arithmetic_mult.md R115). -/
theorem execMult_of_empty (h : execMult s = .next t) (hempty : s.sp ≤ s.sb) :
    t = takeFault .stackUnderflow { s with sp := s.sp - 1 } := by
  rcases execMult_cases h with ⟨-, ht⟩ | ⟨hone, -⟩ | ⟨htwo, -⟩
  · exact ht
  · omega
  · omega

/-- MULT on one word is a fault of its second pop. -/
theorem execMult_of_one (h : execMult s = .next t) (hone : s.sp = (s.sb : Int) + 1) :
    t = takeFault .stackUnderflow { s.popped with sp := s.sp - 2 } := by
  rcases execMult_cases h with ⟨hempty, -⟩ | ⟨-, -, ht⟩ | ⟨htwo, -⟩
  · omega
  · exact ht
  · omega

/-- MULT on two words stores the product in the slot of the lower one, whether or not its advance then faults. -/
theorem execMult_of_two (h : execMult s = .next t) (htwo : (s.sb : Int) + 2 ≤ s.sp) :
    s.sp ≤ s.memSize ∧ t.mem = s.mem.write (s.sp - 2).toNat (product s.top s.popped.top) ∧ t.sp = s.sp - 1 := by
  have hslot : s.popped.popped.sp = s.sp - 2 := by simp only [State.popped_sp]; omega
  rcases execMult_cases h with ⟨hempty, -⟩ | ⟨hone, -⟩ | ⟨-, hN, ⟨-, rfl⟩ | ⟨-, rfl⟩⟩
  · omega
  · omega
  · exact ⟨hN, by rw [← hslot]; rfl, by simp⟩
  · exact ⟨hN, by rw [← hslot]; rfl, by simp⟩

/-- PUSH stores to no word but the one at sp. -/
theorem read_execPush_of_ne (h : execPush arg s = .next t) {a : Nat} (ha : (a : Int) ≠ s.sp) :
    t.mem.read a = s.mem.read a := by
  by_cases hroom : s.sp + 1 < s.memSize
  · obtain ⟨h0, hmem, -⟩ := execPush_of_room h hroom
    rw [hmem, Memory.read_write_of_ne (by omega)]
  · rw [execPush_of_full h (by omega), takeFault_mem]

/-- MULT stores to no word but the one at sp - 2. -/
theorem read_execMult_of_ne (h : execMult s = .next t) {a : Nat} (ha : (a : Int) ≠ s.sp - 2) :
    t.mem.read a = s.mem.read a := by
  by_cases htwo : (s.sb : Int) + 2 ≤ s.sp
  · obtain ⟨-, hmem, -⟩ := execMult_of_two h htwo
    rw [hmem, Memory.read_write_of_ne (by omega)]
  · by_cases hempty : s.sp ≤ s.sb
    · rw [execMult_of_empty h hempty, takeFault_mem]
    · rw [execMult_of_one h (by omega), takeFault_mem, State.popped_mem]

/-- Settles O28: the frame every instruction has, and where PUSH and MULT store and leave sp under each condition. -/
theorem frameOfInstructionsThatStore : Obligations.FrameOfInstructionsThatStore := by
  refine ⟨fun arg s t h => ?_, fun arg s t h => ?_⟩
  · have hframe := exec_frame h
    obtain ⟨events, hout⟩ := hframe.out
    refine ⟨fun a => read_execPush_of_ne h, fun hfull => ?_, fun hroom => (execPush_of_room h hroom).2.2,
      hframe.memSize, hframe.sb, hframe.rs, hframe.verbose, hframe.script, hframe.fault, events, hout.symm⟩
    rw [execPush_of_full h hfull]
    exact ⟨rfl, rfl, rfl⟩
  · have hframe := exec_frame h
    obtain ⟨events, hout⟩ := hframe.out
    refine ⟨fun a => read_execMult_of_ne h, fun hempty => ?_, fun hone => ?_,
      fun htwo => (execMult_of_two h htwo).2.2, hframe.memSize, hframe.sb, hframe.rs, hframe.verbose, hframe.script,
      hframe.fault, events, hout.symm⟩
    · rw [execMult_of_empty h hempty]
      exact ⟨rfl, rfl, rfl⟩
    · rw [execMult_of_one h hone]
      exact ⟨rfl, rfl, rfl⟩

end

/-! The invariant: what an instruction does to the stack and to memory. -/

/-- R33 items 4 and 5 of a run, in progress or over: one below the stack bottom after a StackUnderflow, in bounds otherwise. -/
def State.stackSound (s : State) : Prop :=
  if s.fault = some .stackUnderflow then s.sp = (s.sb : Int) - 1 else s.stackInBounds

section
variable {s t : State} {e : ErrorName}

theorem stackSound_of_no_fault (hf : s.fault = none) : s.stackSound ↔ s.stackInBounds := by
  simp [State.stackSound, hf]

theorem stackSound_takeFault_underflow : (takeFault .stackUnderflow s).stackSound ↔ s.sp = (s.sb : Int) - 1 := by
  simp [State.stackSound]

theorem stackSound_takeFault_other (he : e ≠ .stackUnderflow) : (takeFault e s).stackSound ↔ s.stackInBounds := by
  simp [State.stackSound, State.stackInBounds, he]

theorem State.stackInBounds.popped (h : s.stackInBounds) (hword : (s.sb : Int) < s.sp) : s.popped.stackInBounds := by
  simp only [State.stackInBounds, State.popped_sb, State.popped_sp, State.popped_memSize] at h ⊢
  omega

theorem State.stackInBounds.pushed (h : s.stackInBounds) (hroom : s.sp + 1 < s.memSize) (v : Word) :
    (s.pushed v).stackInBounds := by
  simp only [State.stackInBounds, State.pushed_sb, State.pushed_sp, State.pushed_memSize] at h ⊢
  omega

/-- A step's last act, completing in `v` or failing in `u`, leaves the stack as sound as it is in `v` and in `u`. -/
theorem stackSound_of_last_act {u v : State} {P Q : Prop}
    (ht : (P ∧ t = v) ∨ (Q ∧ t = takeFault .programCounterOverflow u)) (hf : v.fault = none)
    (hv : v.stackInBounds) (hu : u.stackInBounds) : t.stackSound := by
  rcases ht with ⟨-, rfl⟩ | ⟨-, rfl⟩
  · exact (stackSound_of_no_fault hf).2 hv
  · exact (stackSound_takeFault_other (by decide)).2 hu

/-- The fault of a pop of the empty stack leaves sp one below the stack bottom (R33 item 5). -/
theorem stackSound_of_empty_pop (hs : s.stackInBounds) (hempty : s.sp ≤ s.sb) :
    (takeFault .stackUnderflow { s with sp := s.sp - 1 }).stackSound := by
  have hsp : (s.sb : Int) ≤ s.sp := hs.1
  exact stackSound_takeFault_underflow.2 (by simp only; omega)

/-- An instruction of a run in progress leaves the stack within its bounds, or one below them by a StackUnderflow. -/
theorem exec_stackSound {i : Instr} (h : exec i s = .next t) (hf : s.fault = none) (hs : s.stackInBounds) :
    t.stackSound := by
  cases i with
  | nop arg => exact stackSound_of_last_act (execNop_cases h) hf hs hs
  | mult arg =>
    rcases execMult_cases h with ⟨hempty, rfl⟩ | ⟨hone, -, rfl⟩ | ⟨htwo, hN, hadv⟩
    · exact stackSound_of_empty_pop hs hempty
    · exact stackSound_takeFault_underflow.2 (by simp only [State.popped_sb]; omega)
    · have hpops := (hs.popped (by omega)).popped (by simp only [State.popped_sb, State.popped_sp]; omega)
      have hpush := hpops.pushed (by simp only [State.popped_sp, State.popped_memSize]; omega)
        (product s.top s.popped.top)
      exact stackSound_of_last_act hadv hf hpush hpush
  | call arg => exact stackSound_of_last_act (execCall_cases h) hf hs hs
  | ret arg =>
    rcases execRet_cases h with ⟨hempty, rfl⟩ | ⟨hword, -, hmove⟩
    · exact stackSound_of_empty_pop hs hempty
    · exact stackSound_of_last_act hmove hf (hs.popped hword) (hs.popped hword)
  | stop arg =>
    rw [execStop_cases h]
    exact (stackSound_of_no_fault (s := stopRun s) hf).2 hs
  | print arg =>
    rcases execPrint_cases h with ⟨hempty, rfl⟩ | ⟨hword, -, hadv⟩
    · exact stackSound_of_empty_pop hs hempty
    · exact stackSound_of_last_act hadv hf (hs.popped hword) (hs.popped hword)
  | push arg =>
    rcases execPush_cases h with ⟨-, rfl⟩ | ⟨-, hroom, hadv⟩
    · exact (stackSound_takeFault_other (by decide)).2 hs
    · have hpushed := hs.pushed hroom (argWord arg)
      exact stackSound_of_last_act hadv hf hpushed hpushed

/-- `m'` is `m`, or `m` with one word of the stack region written: at or above the stack bottom and below the last index. -/
def State.stackWrite (s : State) (m' : Memory) : Prop :=
  m' = s.mem ∨ ∃ (a : Nat) (v : Word), s.sb ≤ a ∧ a + 1 < s.memSize ∧ m' = s.mem.write a v

/-- What an instruction of a run in progress can do to memory (10_state.md R33 item 7). -/
theorem exec_stackWrite {i : Instr} (h : exec i s = .next t) (hs : s.stackInBounds) : s.stackWrite t.mem := by
  have hsp : (s.sb : Int) ≤ s.sp := hs.1
  cases i with
  | push arg =>
    by_cases hroom : s.sp + 1 < s.memSize
    · obtain ⟨-, hmem, -⟩ := execPush_of_room h hroom
      exact .inr ⟨s.sp.toNat, _, by omega, by omega, hmem⟩
    · rw [execPush_of_full h (by omega)]
      exact .inl rfl
  | mult arg =>
    by_cases htwo : (s.sb : Int) + 2 ≤ s.sp
    · obtain ⟨hN, hmem, -⟩ := execMult_of_two h htwo
      exact .inr ⟨(s.sp - 2).toNat, _, by omega, by omega, hmem⟩
    · by_cases hempty : s.sp ≤ s.sb
      · rw [execMult_of_empty h hempty]
        exact .inl rfl
      · rw [execMult_of_one h (by omega)]
        exact .inl rfl
  | _ => exact .inl (exec_of_no_store h (by simp [Instr.opcode]) (by simp [Instr.opcode])).1

theorem State.stackWrite.wf {m' : Memory} (h : s.stackWrite m') (hwf : s.mem.wf = true) : m'.wf = true := by
  rcases h with rfl | ⟨a, v, -, -, rfl⟩
  · exact hwf
  · exact Memory.write_wf hwf a v

theorem State.stackWrite.within {m' : Memory} (h : s.stackWrite m') (hwithin : s.mem.within s.memSize = true) :
    m'.within s.memSize = true := by
  rcases h with rfl | ⟨a, v, -, ha, rfl⟩
  · exact hwithin
  · exact Memory.write_within hwithin (by omega) v

/-- The word that changed, if any, is the one written. -/
theorem State.stackWrite.changed {m' : Memory} (h : s.stackWrite m') :
    (∀ a, m'.read a ≠ s.mem.read a → s.sb ≤ a ∧ a + 1 < s.memSize) ∧
      ∀ a b, m'.read a ≠ s.mem.read a → m'.read b ≠ s.mem.read b → a = b := by
  rcases h with rfl | ⟨slot, v, hlo, hhi, rfl⟩
  · exact ⟨fun a ha => absurd rfl ha, fun a b ha _ => absurd rfl ha⟩
  · have hslot : ∀ a, (s.mem.write slot v).read a ≠ s.mem.read a → a = slot := fun a ha =>
      by_contra fun hne => ha (Memory.read_write_of_ne hne v s.mem)
    refine ⟨fun a ha => ?_, fun a b ha hb => (hslot a ha).trans (hslot b hb).symm⟩
    rw [hslot a ha]
    exact ⟨hlo, hhi⟩

/-! The invariant: the engine's step and the host's commands keep it. -/

theorem State.Inv.stackInBounds_of_enabled (h : s.Inv) (he : s.enabled) : s.stackInBounds := by
  obtain ⟨hrs, hf⟩ := he
  exact h.noFault (by simp [hrs]) hf

theorem State.stackSound.underflow (h : s.stackSound) (hf : s.fault = some .stackUnderflow) :
    s.sp = (s.sb : Int) - 1 := by
  simpa [State.stackSound, hf] using h

theorem State.stackSound.otherFault (h : s.stackSound) (hf : s.fault = some e) (he : e ≠ .stackUnderflow) :
    s.stackInBounds := by
  simpa [State.stackSound, hf, he] using h

theorem possibleFaults_subset (i : Instr) :
    possibleFaults i ⊆ [.stackUnderflow, .stackOverflow, .programCounterOverflow] := by
  cases i <;> simp [possibleFaults]

/-- No instruction raises an error of INSERT (R27) or of the fetch. -/
theorem ne_of_mem_possibleFaults {i : Instr} (he : e ∈ possibleFaults i) :
    e ≠ .invalidInsertState ∧ e ≠ .insertAddressOutOfRange ∧ e ≠ .fetchAddressOutOfRange :=
  (by decide : ∀ e ∈ [ErrorName.stackUnderflow, .stackOverflow, .programCounterOverflow],
    e ≠ .invalidInsertState ∧ e ≠ .insertAddressOutOfRange ∧ e ≠ .fetchAddressOutOfRange)
    e (possibleFaults_subset i he)

/-- An instruction fetched in a run in progress keeps the invariant. -/
theorem exec_inv {i : Instr} (h : exec i s = .next t) (hinv : s.Inv) (he : s.enabled) (hpc : s.pc < s.memSize) :
    t.Inv := by
  have hframe := exec_frame h
  have hbounds := hinv.stackInBounds_of_enabled he
  have hwrite := exec_stackWrite h hbounds
  have hstack := exec_stackSound h he.2 hbounds
  have htpc := exec_pc_lt h hpc
  have hraised : ∀ e, t.fault = some e → e ∈ possibleFaults i := fun e hfe => by
    rcases hframe.fault with hkept | ⟨e', he', hset, -⟩
    · simp [hkept, he.2] at hfe
    · rw [hset] at hfe
      cases hfe
      exact he'
  have hrs : t.rs ≠ .initializing := by
    rw [hframe.rs, he.1]
    split_ifs <;> simp
  constructor
  case size => rw [hframe.memSize]; exact hinv.size
  case memWf => exact hwrite.wf hinv.memWf
  case memWithin => rw [hframe.memSize]; exact hwrite.within hinv.memWithin
  case sbBound => rw [hframe.sb, hframe.memSize]; exact hinv.sbBound
  case pcBound => exact htpc.le
  case initializing => exact fun hinit => absurd hinit hrs
  case noFault => exact fun _ hf => (stackSound_of_no_fault hf).1 hstack
  case underflow => exact hstack.underflow
  case otherFault => exact fun e hf hne => hstack.otherFault hf hne
  case faultRunning =>
    intro hf
    obtain ⟨e, hfe⟩ := Option.ne_none_iff_exists'.mp hf
    rw [hframe.rs, if_neg (opcode_ne_stop_of_mem_possibleFaults (hraised e hfe)), he.1]
  case notInsertError =>
    exact ⟨fun hf => (ne_of_mem_possibleFaults (hraised _ hf)).1 rfl,
      fun hf => (ne_of_mem_possibleFaults (hraised _ hf)).2.1 rfl⟩
  case pcAfterRun => exact fun _ _ => htpc

/-- The faults of a fetch and of a decoding, which change nothing else, keep the invariant. -/
theorem inv_takeFault (hinv : s.Inv) (he : s.enabled)
    (hkind : e = .fetchAddressOutOfRange ∨ e = .invalidInstruction ∧ s.pc < s.memSize) : (takeFault e s).Inv := by
  have hbounds := hinv.stackInBounds_of_enabled he
  have hne : e ≠ .stackUnderflow ∧ e ≠ .invalidInsertState ∧ e ≠ .insertAddressOutOfRange := by
    rcases hkind with rfl | ⟨rfl, -⟩ <;> decide
  have hstack : (takeFault e s).stackSound := (stackSound_takeFault_other hne.1).2 hbounds
  constructor
  case size => exact hinv.size
  case memWf => exact hinv.memWf
  case memWithin => exact hinv.memWithin
  case sbBound => exact hinv.sbBound
  case pcBound => exact hinv.pcBound
  case initializing => simp [he.1]
  case noFault => simp
  case underflow => exact hstack.underflow
  case otherFault => exact fun e hf hne => hstack.otherFault hf hne
  case faultRunning => exact fun _ => he.1
  case notInsertError => simp [hne]
  case pcAfterRun =>
    intro _ hfetch
    rcases hkind with rfl | ⟨-, hpc⟩
    · simp at hfetch
    · exact hpc

theorem engineStep_inv (h : engineStep s = .next t) (hinv : s.Inv) (he : s.enabled) : t.Inv := by
  rcases engineStep_cases h with ⟨-, rfl⟩ | ⟨hpc, ⟨b, -, rfl⟩ | ⟨i, -, hexec⟩⟩
  · exact inv_takeFault hinv he (.inl rfl)
  · exact inv_takeFault hinv he (.inr ⟨rfl, hpc⟩)
  · exact exec_inv hexec hinv he hpc

/-- The invariant speaks of neither the verbose flag, nor the events, nor the host's script and replies. -/
theorem State.Inv.withRecords (h : s.Inv) (verbose : Bool) (out : List Event) (script : List Command)
    (replies : List Reply) :
    State.Inv { s with verbose := verbose, out := out, script := script, replies := replies } :=
  ⟨h.size, h.memWf, h.memWithin, h.sbBound, h.pcBound, h.initializing, h.noFault, h.underflow, h.otherFault,
    h.faultRunning, h.notInsertError, h.pcAfterRun⟩

theorem State.Inv.reply (h : s.Inv) (r : Reply) : (s.reply r).Inv := h.withRecords _ _ _ _

/-- What the invariant asks of a state in which no run has begun. -/
theorem inv_of_initializing (size : Config.minMemSize ≤ s.memSize ∧ s.memSize ≤ Config.maxMemSize)
    (memWf : s.mem.wf = true) (memWithin : s.mem.within s.memSize = true) (sbBound : s.sb ≤ s.memSize)
    (pcBound : s.pc ≤ s.memSize) (hrs : s.rs = .initializing) (hsp : s.sp = 0) (hf : s.fault = none) : s.Inv := by
  refine ⟨size, memWf, memWithin, sbBound, pcBound, fun _ => ⟨hsp, hf⟩, ?_, ?_, ?_, ?_, ?_, ?_⟩ <;> simp [hrs, hf]

/-- CONSTRUCT establishes the invariant, whatever state it is presented in (R34). -/
theorem constructed_inv {n : Nat} {memInit : List (Nat × Word)} (h : (Command.construct n memInit).wf = true)
    (s : State) : (constructed n memInit s).Inv :=
  inv_of_initializing (of_decide_eq_true h) (Memory.ofCells_wf n memInit) (Memory.ofCells_within n memInit)
    (Nat.zero_le n) (Nat.zero_le n) rfl rfl rfl

/-- Settles O42: the reset state is what CONSTRUCT of 100 zero words makes. -/
theorem resetMeetsTheInvariant : Obligations.ResetMeetsTheInvariant :=
  constructed_inv (n := Config.resetMemSize) (memInit := []) (by decide) State.reset

/-- START's transition (40_execution_engine.md R102): the stack begins empty, at the stack bottom. -/
theorem beginRun_inv (hinv : s.Inv) (hf : s.fault = none) : (beginRun s).Inv := by
  have hsb := hinv.sbBound
  have hbounds : (beginRun s).stackInBounds := by
    simp only [State.stackInBounds, beginRun_sb, beginRun_sp, beginRun_memSize]
    omega
  refine ⟨hinv.size, hinv.memWf, hinv.memWithin, hinv.sbBound, hinv.pcBound, ?_, fun _ _ => hbounds, ?_, ?_, ?_, ?_, ?_⟩
    <;> simp [hf]

theorem performCommand_inv {c : Command} (h : performCommand c s = .next t) (hinv : s.Inv) : t.Inv := by
  obtain ⟨-, hc⟩ := performCommand_cases h
  cases c with
  | construct n memInit =>
    obtain ⟨hwf, rfl⟩ := hc
    exact (constructed_inv hwf s).reply _
  | setAddress a =>
    obtain ⟨hrs, ⟨ha, rfl⟩ | ⟨-, rfl⟩⟩ := hc
    · obtain ⟨hsp, hf⟩ := hinv.initializing hrs
      exact (inv_of_initializing (s := s.moved _) hinv.size hinv.memWf hinv.memWithin hinv.sbBound ha.le hrs hsp
        hf).reply _
    · exact hinv.reply _
  | insert ins x =>
    rcases hc with ⟨-, rfl⟩ | ⟨-, -, rfl⟩ | ⟨hrs, hpc, rfl⟩
    · exact hinv.reply _
    · exact hinv.reply _
    · obtain ⟨hsp, hf⟩ := hinv.initializing hrs
      exact inv_of_initializing hinv.size (Memory.write_wf hinv.memWf _ _) (Memory.write_within hinv.memWithin hpc _)
        (max_le hinv.sbBound hpc) hpc hrs hsp hf
  | setVerbose b =>
    obtain ⟨-, rfl⟩ := hc
    exact hinv.withRecords _ _ _ _
  | start =>
    obtain ⟨hf, ⟨-, rfl⟩ | ⟨-, rfl⟩⟩ := hc
    · exact beginRun_inv hinv hf
    · exact hinv.reply _

/-- Settles O43: the engine's step and the host's commands each keep the invariant. -/
theorem everyStepKeepsTheInvariant : Obligations.EveryStepKeepsTheInvariant := by
  intro s t hinv h
  rcases step_cases h with ⟨he, hengine⟩ | ⟨-, c, cs, -, hcommand⟩
  · exact engineStep_inv hengine hinv he
  · exact performCommand_inv hcommand (hinv.withRecords _ _ cs _)

end

/-! What any step can do to the pc, memory, the latch, the run state and the event stream. -/

section
variable {s t : State}

/-- Settles O44: no fault was taken at the fetch, so an instruction in memory ran. -/
theorem completedStepLeavesPcInMemory : Obligations.CompletedStepLeavesPcInMemory := by
  intro s t he h hf
  rw [step_of_enabled he] at h
  rcases engineStep_cases h with ⟨-, rfl⟩ | ⟨hpc, ⟨b, -, rfl⟩ | ⟨i, -, hexec⟩⟩
  · simp at hf
  · simp at hf
  · exact exec_pc_lt hexec hpc

/-- What an engine step does to the memory size, the stack bottom, and memory (10_state.md R33 items 6 and 7). -/
theorem engineStep_storage (h : engineStep s = .next t) (hs : s.stackInBounds) :
    t.sb = s.sb ∧ t.memSize = s.memSize ∧ s.stackWrite t.mem := by
  rcases engineStep_cases h with ⟨-, rfl⟩ | ⟨-, ⟨b, -, rfl⟩ | ⟨i, -, hexec⟩⟩
  · exact ⟨rfl, rfl, .inl rfl⟩
  · exact ⟨rfl, rfl, .inl rfl⟩
  · have hframe := exec_frame hexec
    exact ⟨hframe.sb, hframe.memSize, exec_stackWrite hexec hs⟩

/-- Settles O45: the one word an engine step can write is in the stack region. -/
theorem engineNeverWritesTheProgramRegion : Obligations.EngineNeverWritesTheProgramRegion := by
  intro s t hinv he h
  rw [step_of_enabled he] at h
  obtain ⟨hsb, hN, hwrite⟩ := engineStep_storage h (hinv.stackInBounds_of_enabled he)
  exact ⟨hsb, hN, hwrite.changed⟩

/-- An engine step keeps the run state or stops the run, and only appends events. -/
theorem engineStep_rs_out (h : engineStep s = .next t) : (t.rs = s.rs ∨ t.rs = .stopped) ∧ s.out <+: t.out := by
  rcases engineStep_cases h with ⟨-, rfl⟩ | ⟨-, ⟨b, -, rfl⟩ | ⟨i, -, hexec⟩⟩
  · exact ⟨.inl rfl, List.prefix_rfl⟩
  · exact ⟨.inl rfl, List.prefix_rfl⟩
  · have hframe := exec_frame hexec
    refine ⟨?_, hframe.out⟩
    rw [hframe.rs]
    split_ifs
    · exact .inr rfl
    · exact .inl rfl

/-- What every command but CONSTRUCT does to the latch, the run state and the event stream. -/
structure CommandFrame (c : Command) (s t : State) : Prop where
  fault : t.fault = s.fault
  rs : t.rs = s.rs ∨ c = .start ∧ s.rs = .initializing ∧ t.rs = .running ∧ t.sp = t.sb
  out : s.out <+: t.out

theorem performCommand_frame {c : Command} (h : performCommand c s = .next t) :
    (∃ n memInit, c = .construct n memInit ∧ t = (constructed n memInit s).reply .ok) ∨ CommandFrame c s t := by
  obtain ⟨-, hc⟩ := performCommand_cases h
  cases c with
  | construct n memInit => exact .inl ⟨n, memInit, rfl, hc.2⟩
  | setAddress a =>
    obtain ⟨-, ⟨-, rfl⟩ | ⟨-, rfl⟩⟩ := hc
    · exact .inr ⟨rfl, .inl rfl, List.prefix_append _ _⟩
    · exact .inr ⟨rfl, .inl rfl, List.prefix_rfl⟩
  | insert ins x =>
    rcases hc with ⟨-, rfl⟩ | ⟨-, -, rfl⟩ | ⟨-, -, rfl⟩
    · exact .inr ⟨rfl, .inl rfl, List.prefix_rfl⟩
    · exact .inr ⟨rfl, .inl rfl, List.prefix_rfl⟩
    · exact .inr ⟨rfl, .inl rfl, List.prefix_append _ _⟩
  | setVerbose b =>
    obtain ⟨-, rfl⟩ := hc
    exact .inr ⟨rfl, .inl rfl, List.prefix_rfl⟩
  | start =>
    obtain ⟨-, ⟨hrs, rfl⟩ | ⟨-, rfl⟩⟩ := hc
    · exact .inr ⟨rfl, .inr ⟨rfl, hrs, rfl, rfl⟩, List.prefix_rfl⟩
    · exact .inr ⟨rfl, .inl rfl, List.prefix_rfl⟩

/-- Settles O47: with the latch set the step is the host's, and only CONSTRUCT changes the latch. -/
theorem latchIsClearedOnlyByConstruct : Obligations.LatchIsClearedOnlyByConstruct := by
  intro s t e hf h
  rcases step_cases h with ⟨he, -⟩ | ⟨-, c, cs, hscript, hcommand⟩
  · exact absurd he (not_enabled_of_fault hf)
  rcases performCommand_frame hcommand with ⟨n, memInit, rfl, -⟩ | hframe
  · exact .inr ⟨n, memInit, cs, hscript⟩
  · exact .inl (hframe.fault.trans hf)

/-- Settles O48: the engine keeps the run state or stops, and of the commands only START and CONSTRUCT set it. -/
theorem runStateOnlyMovesForward : Obligations.RunStateOnlyMovesForward := by
  intro s t h
  rcases step_cases h with ⟨he, hengine⟩ | ⟨-, c, cs, hscript, hcommand⟩
  · rcases (engineStep_rs_out hengine).1 with hkept | hstopped
    · exact .inl hkept
    · exact .inr (.inr (.inl ⟨he, hstopped⟩))
  rcases performCommand_frame hcommand with ⟨n, memInit, rfl, rfl⟩ | hframe
  · exact .inr (.inr (.inr ⟨rfl, n, memInit, cs, hscript⟩))
  · rcases hframe.rs with hkept | ⟨rfl, hinit, hrun, hsp⟩
    · exact .inl hkept
    · exact .inr (.inl ⟨hinit, hrun, hsp, cs, hscript⟩)

/-- Settles O49: the engine and every command but CONSTRUCT only append events. -/
theorem eventsAreNeverWithdrawn : Obligations.EventsAreNeverWithdrawn := by
  intro s t h
  rcases step_cases h with ⟨-, hengine⟩ | ⟨-, c, cs, hscript, hcommand⟩
  · obtain ⟨events, hout⟩ := (engineStep_rs_out hengine).2
    exact .inl ⟨events, hout.symm⟩
  rcases performCommand_frame hcommand with ⟨n, memInit, rfl, rfl⟩ | hframe
  · exact .inr ⟨rfl, n, memInit, cs, hscript⟩
  · obtain ⟨events, hout⟩ := hframe.out
    exact .inl ⟨events, hout.symm⟩

end

end Sys2Proof.Machine

/-!
The word PUSH pushes, read back as an instruction (20_memory.md R62).
-/

namespace Sys2Proof.Machine

/-- NOP's code is the zero byte, so an argument extended by zeros is the word of NOP with that argument (30_encoding.md R70, R72). -/
theorem argWord_eq_append (arg : Arg) : argWord arg = Opcode.nop.code ++ arg :=
  BitVec.setWidth_eq_append (by decide)

theorem decode_argWord (arg : Arg) : decode (argWord arg) = (Opcode.nop.code, arg) := by
  obtain ⟨hbyte, harg⟩ := Laws.WordFields.of_append Opcode.nop.code arg
  rw [decode, argWord_eq_append, hbyte, harg]

/-- Zero extension keeps the value (30_encoding.md R72). -/
theorem argWord_toNat (arg : Arg) : (argWord arg).toNat = arg.toNat :=
  BitVec.toNat_setWidth_of_le (by decide)

/-- Settles O7: the pushed word's opcode byte is NOP's, and its argument the one pushed. -/
theorem pushedWordExecutesAsNop : Obligations.PushedWordExecutesAsNop := by
  intro arg
  have hlookup : lookup (decode (argWord arg)).1 = some .nop := by
    rw [decode_argWord, lookup_code]
  constructor
  · rw [decodeWord_of_lookup hlookup, decode_argWord, Opcode.instr]
  · exact argWord_toNat arg

end Sys2Proof.Machine

/-!
The codec (30_encoding.md): the table of R75 read both ways, the two fields of a word, what `decodeWord` answers, and the statements
about them.
-/

namespace Sys2Proof

/-! The table. -/

section
variable {b : OpByte} {op : Opcode}

/-- Every entry of the table is the code of the member it names (R75, R76). -/
theorem eq_code_of_lookup (h : lookup b = some op) : b = op.code := by
  unfold lookup at h
  split at h
  case h_8 => cases h
  all_goals cases h; apply BitVec.eq_of_toNat_eq; assumption

theorem lookup_eq_some_iff : lookup b = some op ↔ b = op.code :=
  ⟨eq_code_of_lookup, fun h => h ▸ lookup_code op⟩

/-- The codes of the table leave out the reserved byte 3 and the bytes from 8 on (R77). -/
theorem lookup_eq_none_iff : lookup b = none ↔ b.toNat = 3 ∨ 8 ≤ b.toNat := by
  unfold lookup
  split
  case h_8 => grind
  all_goals simp [*]

end

/-! The two fields of a word (R70). -/

section
variable {w w' : Word} {i : Instr}

theorem decode_append (c : OpByte) (a : Arg) : decode (c ++ a) = (c, a) := by
  obtain ⟨hbyte, harg⟩ := Laws.WordFields.of_append c a
  rw [decode, hbyte, harg]

theorem eq_of_decode_eq (h : decode w = decode w') : w = w' :=
  word_ext (congrArg Prod.fst h) (congrArg Prod.snd h)

theorem append_decode (w : Word) : (decode w).1 ++ (decode w).2 = w :=
  eq_of_decode_eq (decode_append _ _)

theorem decode_fst_toNat (w : Word) : (decode w).1.toNat = w.toNat / 2 ^ 24 := by
  have hlt := w.isLt
  rw [decode, BitVec.extractLsb'_toNat, Nat.shiftRight_eq_div_pow]
  exact Nat.mod_eq_of_lt (by omega)

theorem decode_encode (op : Opcode) (x : Int) : decode (encode op x) = (op.code, BitVec.ofInt 24 x) :=
  decode_append _ _

theorem decode_encodeInstr (i : Instr) : decode (encodeInstr i) = (i.opcode.code, i.argument) := by
  rw [encodeInstr, decode_encode, Laws.WordFields.ofInt_argument]

/-! What `decodeWord` answers. -/

/-- A word is an instruction exactly when its fields are the instruction's code and argument. -/
theorem decodeWord_eq_instr_iff : decodeWord w = .instr i ↔ decode w = (i.opcode.code, i.argument) := by
  constructor
  · intro h
    cases hop : lookup (decode w).1 with
    | none =>
      rw [decodeWord_of_lookup_none hop] at h
      cases h
    | some op =>
      rw [decodeWord_of_lookup hop] at h
      cases h
      rw [Opcode.opcode_instr, Opcode.argument_instr, ← eq_code_of_lookup hop]
  · intro h
    have hop : lookup (decode w).1 = some i.opcode := by rw [h, lookup_code]
    rw [decodeWord_of_lookup hop, h, Instr.eq_instr]

theorem decodeWord_eq_invalid_iff {b : OpByte} :
    decodeWord w = .invalid b ↔ b = (decode w).1 ∧ lookup (decode w).1 = none := by
  cases hop : lookup (decode w).1 with
  | none => simp [decodeWord_of_lookup_none hop, eq_comm]
  | some op => simp [decodeWord_of_lookup hop]

/-- The opcode byte alone says which opcode's instruction a word is; the argument is whatever it is (R74, R75). -/
theorem exists_decodeWord_eq_instr_iff {op : Opcode} :
    (∃ a, decodeWord w = .instr (op.instr a)) ↔ (decode w).1 = op.code := by
  simp [decodeWord_eq_instr_iff, Prod.ext_iff]

end

/-- Settles O5: a word is an instruction exactly when its fields are, the encoded word has those fields, and no two words share
theirs. -/
theorem decodeAndEncodeAgree : Obligations.DecodeAndEncodeAgree := by
  refine ⟨fun i => decodeWord_eq_instr_iff.2 (decode_encodeInstr i), fun w i h => ?_, fun op x => ⟨decode_encode op x, ?_⟩⟩
  · exact eq_of_decode_eq ((decode_encodeInstr i).trans (decodeWord_eq_instr_iff.1 h).symm)
  · rw [decode_encode, BitVec.toNat_ofInt]
    exact Int.toNat_of_nonneg (Int.emod_nonneg x (by decide))

/-- The mask of R76 keeps the opcode byte and clears the argument. -/
theorem and_opcodeMask (w : Word) : w &&& 0xFF000000#32 = (decode w).1 ++ 0#24 := by
  have hmask : 0xFF000000#32 = BitVec.allOnes 8 ++ 0#24 := by decide
  calc w &&& 0xFF000000#32
      = ((decode w).1 ++ (decode w).2) &&& (BitVec.allOnes 8 ++ 0#24) := by rw [append_decode, hmask]
    _ = (decode w).1 ++ 0#24 := by rw [BitVec.and_append, BitVec.and_allOnes, BitVec.and_zero]

/-- A word matches an opcode under the mask exactly when its opcode byte is the opcode's code. -/
theorem and_opcodeMask_eq_iff {w : Word} {op : Opcode} :
    w &&& 0xFF000000#32 = op.code ++ 0#24 ↔ (decode w).1 = op.code := by
  rw [and_opcodeMask]
  refine ⟨fun h => ?_, fun h => by rw [h]⟩
  simpa only [decode_append] using congrArg (fun u => (decode u).1) h

/-- Settles O3: each match of the table is the opcode's code above a zero argument. -/
theorem matchUnderMaskSelectsInstruction : Obligations.MatchUnderMaskSelectsInstruction := by
  intro w op
  rw [exists_decodeWord_eq_instr_iff, ← and_opcodeMask_eq_iff]
  cases op <;> rfl

/-- Settles O4: a word is rejected when the table does not know its opcode byte, which is its bits from 24 up. -/
theorem illegalWordsAreRejected : Obligations.IllegalWordsAreRejected := by
  intro w b
  rw [decodeWord_eq_invalid_iff, lookup_eq_none_iff, decode_fst_toNat]

/-- Settles O1: both fields are the word shifted and cut to the field's width. -/
theorem decodeSplitsEveryWord : Obligations.DecodeSplitsEveryWord := by
  intro w
  constructor
  · rw [decode, BitVec.extractLsb'_toNat]
    exact (Nat.and_two_pow_sub_one_eq_mod _ 8).symm
  · rw [decode, BitVec.extractLsb'_toNat]
    exact (Nat.and_two_pow_sub_one_eq_mod _ 24).symm

end Sys2Proof

namespace Sys2Proof.Machine

/-- A fetched word whose opcode byte the table does not know takes the decoding fault, with nothing else changed (R95). -/
theorem engineStep_of_lookup_none {s : State} (hpc : s.pc < s.memSize)
    (h : lookup (decode (s.mem.read s.pc)).1 = none) : engineStep s = .next (takeFault .invalidInstruction s) := by
  simp only [engineStep, fetch_of_lt hpc, decodeWord_of_lookup_none h]

/-- Settles O2: the table's members are found by their codes, and an unknown byte's fault ends the run. -/
theorem lookupKnowsTheClosedTable : Obligations.LookupKnowsTheClosedTable := by
  refine ⟨fun op b => ?_, fun b => lookup_eq_none_iff, fun s he hpc hnone => ?_⟩
  · rw [lookup_eq_some_iff, ← BitVec.toNat_inj]
    cases op <;> simp [Opcode.code]
  · refine ⟨takeFault .invalidInstruction s, ?_, not_enabled_of_fault rfl, fun hdone => ?_⟩
    · rw [step_of_enabled he, engineStep_of_lookup_none hpc hnone]
    · simp [State.completed] at hdone

/-- Settles O8: the arms of the other five instructions do not name the argument. -/
theorem unusedArgumentIsIgnored : Obligations.UnusedArgumentIsIgnored := by
  intro i s hcall hpush
  cases i with
  | call arg => exact absurd rfl hcall
  | push arg => exact absurd rfl hpush
  | _ => rfl

end Sys2Proof.Machine

/-!
The execution engine (40_execution_engine.md): what a step runs, the template and the primitives, how an instruction and a run end,
and the events of a quiet run.
-/

namespace Sys2Proof.Machine

/-! What a step runs. -/

section
variable {s : State}

/-- A fetched word that is an instruction is executed, and nothing is added around it (R98). -/
theorem engineStep_of_instr {i : Instr} (hpc : s.pc < s.memSize) (h : decodeWord (s.mem.read s.pc) = .instr i) :
    engineStep s = exec i s := by
  simp only [engineStep, fetch_of_lt hpc, h]

/-- A fetched word that is no instruction takes the decoding fault (R95). -/
theorem engineStep_of_invalid {b : OpByte} (hpc : s.pc < s.memSize) (h : decodeWord (s.mem.read s.pc) = .invalid b) :
    engineStep s = .next (takeFault .invalidInstruction s) :=
  engineStep_of_lookup_none hpc (decodeWord_eq_invalid_iff.1 h).2

/-- A fetch outside memory takes its fault (R94). -/
theorem engineStep_of_pc_ge (hpc : s.memSize ≤ s.pc) :
    engineStep s = .next (takeFault .fetchAddressOutOfRange s) := by
  simp only [engineStep, fetch_of_ge hpc]

/-- Outside a run a host with nothing to present leaves the machine without a step. -/
theorem step_of_script_nil (he : ¬ s.enabled) (h : s.script = []) : step s = .fault (idleReason s) := by
  simp only [step_of_not_enabled he, hostStep, h]

end

/-- Settles O9: in a run the step is the engine's, and its fetch finds the instruction. -/
theorem stepRunsDecodedInstruction : Obligations.StepRunsDecodedInstruction := by
  intro s i he hpc h
  rw [step_of_enabled he, engineStep_of_instr hpc h]

/-- Settles O10: the two faults before an instruction is known change the latch and the replies only. -/
theorem stepTakesFetchAndDecodeFaults : Obligations.StepTakesFetchAndDecodeFaults := by
  intro s he
  rw [step_of_enabled he]
  exact ⟨engineStep_of_pc_ge, fun hpc ⟨_, h⟩ => engineStep_of_invalid hpc h⟩

/-- Settles O11: the reason is the latch's when it is set, and otherwise the run state's. -/
theorem noStepOutsideARunWithoutHost : Obligations.NoStepOutsideARunWithoutHost := by
  intro s hscript
  refine ⟨fun e hf => ?_, fun hf hrs => ?_, fun hf hrs => ?_⟩
  · rw [step_of_script_nil (not_enabled_of_fault hf) hscript]
    simp only [idleReason, hf]
  · rw [step_of_script_nil (not_enabled_of_rs (by simp [hrs])) hscript]
    simp only [idleReason, hf, hrs]
  · rw [step_of_script_nil (not_enabled_of_rs (by simp [hrs])) hscript]
    simp only [idleReason, hf, hrs]

/-! A word placed to be fetched next (the model's `withFetchWord`, log 23). -/

section
variable (s : State) (w : Word)

theorem placeFetchWord_mem : (placeFetchWord s w).mem = s.mem.write (placeFetchWord s w).pc w := rfl

theorem placeFetchWord_memSize : (placeFetchWord s w).memSize = s.memSize := by
  rw [placeFetchWord]
  split_ifs <;> rfl

theorem placeFetchWord_enabled : (placeFetchWord s w).enabled := by
  by_cases he : s.enabled
  · simpa only [placeFetchWord, if_pos he] using he
  · simp [placeFetchWord, if_neg he, State.enabled]

end

section
variable {s : State} {w : Word}

theorem placeFetchWord_pc_lt (hN : 0 < s.memSize) (w : Word) :
    (placeFetchWord s w).pc < (placeFetchWord s w).memSize := by
  rw [placeFetchWord_memSize, placeFetchWord]
  dsimp only
  split_ifs with hpc
  · exact hpc
  · exact hN

theorem read_placeFetchWord (hwf : s.mem.wf = true) (w : Word) :
    (placeFetchWord s w).mem.read (placeFetchWord s w).pc = w := by
  rw [placeFetchWord_mem, Memory.read_write_same hwf]

end

/-- Settles O13: a run is in progress, the pc is in memory, and the word read there is the one placed. -/
theorem placedWordIsExecutedNext : Obligations.PlacedWordIsExecutedNext := by
  intro s w hinv
  have he : (s.withFetchWord 32 w).enabled := placeFetchWord_enabled s _
  have hpc : (s.withFetchWord 32 w).pc < (s.withFetchWord 32 w).memSize := placeFetchWord_pc_lt hinv.size.1 _
  have hread : (s.withFetchWord 32 w).mem.read (s.withFetchWord 32 w).pc = tableWord 32 w :=
    read_placeFetchWord hinv.memWf _
  rw [step_of_enabled he]
  cases hd : decodeWord (tableWord 32 w) with
  | instr i =>
    rw [engineStep_of_instr hpc (hread.symm ▸ hd)]
    simp only [decodeTableWord, hd]
  | invalid b =>
    rw [engineStep_of_invalid hpc (hread.symm ▸ hd)]
    simp only [decodeTableWord, hd]

/-! The template (R97) and the primitives. -/

/-- Settles O32: each form begins with its first pop and goes on with the form of one operand less. -/
theorem templateKeepsItsOrder : Obligations.TemplateKeepsItsOrder := by
  refine ⟨fun adv op s t => ⟨fun h => ?_, fun e h => ?_⟩, fun adv op s t => ⟨fun v h => ?_, fun e h => ?_⟩,
    fun adv op s t => ⟨fun v h => ⟨fun v' u h' => ?_, fun e u h' => ?_⟩, fun e h => ?_⟩⟩
  · rw [template0, h, Flow.andThen_done]
  · rw [template0, h, Flow.andThen_raise]
  · rw [template1_eq, h, Flow.andThen_done]
  · rw [template1_eq, h, Flow.andThen_raise]
  · rw [template2_eq, h, Flow.andThen_done, template1_eq, h', Flow.andThen_done]
  · rw [template2_eq, h, Flow.andThen_done, template1_eq, h', Flow.andThen_raise]
  · rw [template2_eq, h, Flow.andThen_raise]

/-- The word on top of the stack after a push is the word pushed. -/
theorem top_pushed {s : State} (hwf : s.mem.wf = true) (v : Word) : (s.pushed v).top = v := by
  rw [State.top, State.pushed_mem, State.pushed_sp, Int.add_sub_cancel, Memory.read_write_same hwf]

/-- Settles O33: the push writes the slot at sp, and the pop reads that slot. -/
theorem pushThenPopGivesTheWordBack : Obligations.PushThenPopGivesTheWordBack := by
  intro s v hwf hsb hroom
  have hpop : popStack (s.pushed v) = .done (s.pushed v).top (s.pushed v).popped :=
    popStack_of_word (by simp only [State.pushed_sb, State.pushed_sp]; omega)
      (by simp only [State.pushed_memSize, State.pushed_sp]; omega)
  rw [top_pushed hwf] at hpop
  refine ⟨s.pushed v, (s.pushed v).popped, pushStack_of_room (by omega) hroom v, hpop, ?_, ?_, fun a ha => ?_⟩
  · simp
  · rw [State.popped_mem, State.pushed_mem, Memory.read_write_same hwf]
  · rw [State.popped_mem, State.pushed_mem, Memory.read_write_of_ne ha]

/-- Settles O38: outside a run START begins one, and STOP cannot fail. -/
theorem runStateTransitionEffects : Obligations.RunStateTransitionEffects := by
  refine ⟨fun s hrs hf => ?_, fun arg s => ⟨s.replies ++ [.ok], rfl⟩⟩
  have he : ¬ s.enabled := not_enabled_of_rs (by simp [hrs])
  simp [performCommand, if_neg he, doStart, hf, hrs, beginRun]

/-! How an instruction ends: what its pops, pushes and output keep, its end finds. -/

/-- `P` is kept by everything an instruction does before its end: a pop, completing or failed, a push, and an output. -/
structure KeptByOperations (P : State → Prop) : Prop where
  withSp : ∀ u (x : Int), P u → P { u with sp := x }
  popped : ∀ u, P u → P u.popped
  pushed : ∀ u v, P u → P (u.pushed v)
  output : ∀ u text, P u → P (u.emit (.output text))

section
variable {i : Instr} {s t u : State} {P : State → Prop}

/-- Every instruction but STOP sets the pc at its end, and can fail there (60_exceptions.md R162). -/
theorem programCounterOverflow_mem_possibleFaults (hop : i.opcode ≠ .stop) :
    ErrorName.programCounterOverflow ∈ possibleFaults i := by
  cases i with
  | stop arg => exact absurd rfl hop
  | _ => simp [possibleFaults]

/-- An instruction whose last act is the advance of `u`, completing or failing, ends from `u`. -/
theorem execEnd_of_advance (hu : P u) (hop : i.opcode ≠ .call ∧ i.opcode ≠ .ret ∧ i.opcode ≠ .stop)
    (ht : (u.pc + 1 < u.memSize ∧ t = u.advanced) ∨ (u.memSize ≤ u.pc + 1 ∧ t = takeFault .programCounterOverflow u)) :
    ∃ u, P u ∧ ExecEnd i u t := by
  rcases ht with ⟨hpc, rfl⟩ | ⟨-, rfl⟩
  · exact ⟨u, hu, .advance hop hpc⟩
  · exact ⟨u, hu, .raise _ (programCounterOverflow_mem_possibleFaults hop.2.2)⟩

/-- An instruction whose last act is a move of `u`, completing or failing, ends from `u`. -/
theorem execEnd_of_move {a : Nat} (hu : P u) (hop : i.opcode = .call ∨ i.opcode = .ret)
    (ht : (a < u.memSize ∧ t = u.moved a) ∨ (u.memSize ≤ a ∧ t = takeFault .programCounterOverflow u)) :
    ∃ u, P u ∧ ExecEnd i u t := by
  have hns : i.opcode ≠ .stop := by rcases hop with hc | hr <;> simp [*]
  rcases ht with ⟨ha, rfl⟩ | ⟨-, rfl⟩
  · exact ⟨u, hu, .jump hop a ha⟩
  · exact ⟨u, hu, .raise _ (programCounterOverflow_mem_possibleFaults hns)⟩

/-- Whatever the operations of an instruction keep holds in the state its end starts from. -/
theorem exec_ends_of_kept (hP : KeptByOperations P) (hs : P s) (h : exec i s = .next t) : ∃ u, P u ∧ ExecEnd i u t := by
  cases i with
  | nop arg => exact execEnd_of_advance hs (by simp [Instr.opcode]) (execNop_cases h)
  | mult arg =>
    have hpop := hP.popped s hs
    rcases execMult_cases h with ⟨-, rfl⟩ | ⟨-, -, rfl⟩ | ⟨-, -, hadv⟩
    · exact ⟨_, hP.withSp s _ hs, .raise _ (by simp [possibleFaults])⟩
    · exact ⟨_, hP.withSp _ _ hpop, .raise _ (by simp [possibleFaults])⟩
    · exact execEnd_of_advance (hP.pushed _ (product s.top s.popped.top) (hP.popped _ hpop)) (by simp [Instr.opcode]) hadv
  | call arg => exact execEnd_of_move hs (by simp [Instr.opcode]) (execCall_cases h)
  | ret arg =>
    rcases execRet_cases h with ⟨-, rfl⟩ | ⟨-, -, hmove⟩
    · exact ⟨_, hP.withSp s _ hs, .raise _ (by simp [possibleFaults])⟩
    · exact execEnd_of_move (hP.popped s hs) (by simp [Instr.opcode]) hmove
  | stop arg =>
    obtain rfl := execStop_cases h
    exact ⟨s, hs, .stop rfl⟩
  | print arg =>
    rcases execPrint_cases h with ⟨-, rfl⟩ | ⟨-, -, hadv⟩
    · exact ⟨_, hP.withSp s _ hs, .raise _ (by simp [possibleFaults])⟩
    · exact execEnd_of_advance (hP.output _ (dec s.top) (hP.popped s hs)) (by simp [Instr.opcode]) hadv
  | push arg =>
    rcases execPush_cases h with ⟨-, rfl⟩ | ⟨-, -, hadv⟩
    · exact ⟨s, hs, .raise _ (by simp [possibleFaults])⟩
    · exact execEnd_of_advance (hP.pushed s (argWord arg) hs) (by simp [Instr.opcode]) hadv

end

/-! The end of a run and its reply (R101). -/

/-- `u` may differ from `s` as `State.Keeps` says, and no reply has been given. -/
def State.KeepsReplies (s u : State) : Prop := s.Keeps u ∧ u.replies = s.replies

theorem keptByOperations_keepsReplies (s : State) : KeptByOperations s.KeepsReplies where
  withSp := fun _ x ⟨hk, hr⟩ => ⟨hk.withSp x, hr⟩
  popped := fun _ ⟨hk, hr⟩ => ⟨hk.popped, hr⟩
  pushed := fun _ v ⟨hk, hr⟩ => ⟨hk.pushed v, hr⟩
  output := fun _ _ ⟨hk, hr⟩ => ⟨hk.emit _, hr⟩

/-- Settles O46: of the ends of an instruction the advance and the jump leave the run going, STOP completes it, and a raise is a
fault like that of the fetch and of the decoding. -/
theorem runEndsOnceWithItsReply : Obligations.RunEndsOnceWithItsReply := by
  intro s t he h
  rw [step_of_enabled he] at h
  rcases engineStep_cases h with ⟨-, rfl⟩ | ⟨-, ⟨b, -, rfl⟩ | ⟨i, -, hexec⟩⟩
  · exact .inr (.inr ⟨_, rfl, he.1, rfl, rfl⟩)
  · exact .inr (.inr ⟨_, rfl, he.1, rfl, rfl⟩)
  · obtain ⟨u, ⟨hu, hreplies⟩, hend⟩ :=
      exec_ends_of_kept (keptByOperations_keepsReplies s) ⟨.refl s, rfl⟩ hexec
    have hrs : u.rs = .running := hu.rs.trans he.1
    have hf : u.fault = none := hu.fault.trans he.2
    cases hend with
    | advance hop hpc => exact .inl ⟨⟨hrs, hf⟩, hreplies⟩
    | jump hop a ha => exact .inl ⟨⟨hrs, hf⟩, hreplies⟩
    | stop hop => exact .inr (.inl ⟨⟨rfl, hf⟩, by rw [stopRun_replies, hreplies], hu.pc⟩)
    | raise e hmem => exact .inr (.inr ⟨e, rfl, hrs, hu.pc, by rw [takeFault_replies, hreplies]⟩)

section
variable {s : State} {arg : Arg}

/-- CALL to an address of the memory. -/
theorem exec_call_of_lt (h : argAddress arg < s.memSize) : exec (.call arg) s = .next (s.moved (argAddress arg)) := by
  rw [exec, execCall, template0_stay, movePC_of_lt h]
  rfl

/-- A CALL whose argument is its own address only traces the move. -/
theorem step_call_self (he : s.enabled) (hpc : s.pc < s.memSize) (h : decodeWord (s.mem.read s.pc) = .instr (.call arg))
    (harg : arg.toNat = s.pc) : step s = .next (s.trace (.debugPcMove s.pc)) := by
  have haddr : argAddress arg = s.pc := harg
  rw [step_of_enabled he, engineStep_of_instr hpc h, exec_call_of_lt (haddr.trans_lt hpc), haddr]
  rfl

end

/-- Settles O51, by induction on the number of steps: each leaves the state it began in but for one more traced move. -/
theorem callToItselfNeverEnds : Obligations.CallToItselfNeverEnds := by
  intro s arg he hpc h harg k
  induction k generalizing s with
  | zero => exact ⟨[], by rw [run_zero, List.append_nil]⟩
  | succ k ih =>
    obtain ⟨events, hrun⟩ := ih (s.trace (.debugPcMove s.pc)) he hpc h harg
    refine ⟨s.traced (.debugPcMove s.pc) ++ events, ?_⟩
    rw [run_succ (step_call_self he hpc h harg), hrun, State.trace_out, List.append_assoc]
    rfl

/-! The events of a quiet run (R99). -/

/-- `u` is quiet like `s`, and only outputs have been appended. -/
def State.QuietSince (s u : State) : Prop :=
  u.verbose = false ∧ ∃ texts : List String, u.out = s.out ++ texts.map Event.output

section
variable {s u t : State}

theorem State.QuietSince.refl (h : s.verbose = false) : s.QuietSince s := ⟨h, [], by simp⟩

/-- A traced event is none when quiet, so an operation that appends only a traced event keeps the stream. -/
theorem State.QuietSince.of_traced {e : Event} (h : s.QuietSince u) (hv : t.verbose = u.verbose)
    (hout : t.out = u.out ++ u.traced e) : s.QuietSince t := by
  obtain ⟨hquiet, texts, htexts⟩ := h
  refine ⟨hv.trans hquiet, texts, ?_⟩
  rw [hout, State.traced_of_quiet hquiet, List.append_nil, htexts]

theorem State.QuietSince.output (h : s.QuietSince u) (text : String) : s.QuietSince (u.emit (.output text)) := by
  obtain ⟨hquiet, texts, htexts⟩ := h
  exact ⟨hquiet, texts ++ [text], by simp [htexts]⟩

theorem keptByOperations_quietSince (s : State) : KeptByOperations s.QuietSince where
  withSp := fun _ _ h => h
  popped := fun _ h => h.of_traced rfl rfl
  pushed := fun _ _ h => h.of_traced rfl rfl
  output := fun _ text h => h.output text

/-- A quiet instruction appends only outputs: its advance and its jump only trace, STOP and a raise emit nothing. -/
theorem exec_quietSince {i : Instr} (h : exec i s = .next t) (hquiet : s.verbose = false) : s.QuietSince t := by
  obtain ⟨u, hu, hend⟩ := exec_ends_of_kept (keptByOperations_quietSince s) (.refl hquiet) h
  cases hend with
  | advance hop hpc => exact hu.of_traced rfl rfl
  | jump hop a ha => exact hu.of_traced rfl rfl
  | stop hop => exact hu
  | raise e he => exact hu

end

/-- The texts of outputs are read back from the outputs. -/
theorem outputTexts_map_output (texts : List String) : outputTexts (texts.map Event.output) = texts := by
  rw [outputTexts, List.filterMap_map]
  exact List.filterMap_some

/-- Settles O31: what a quiet instruction appends is the outputs of some texts, which `outputTexts` reads back. -/
theorem quietInstructionsEmitNoTrace : Obligations.QuietInstructionsEmitNoTrace := by
  intro i s t h hquiet
  obtain ⟨-, texts, hout⟩ := exec_quietSince h hquiet
  rw [hout, List.drop_left, outputTexts_map_output]

end Sys2Proof.Machine

/-!
NOP and STOP (41_system_nop_stop.md).
-/

namespace Sys2Proof.Machine

section
variable {s : State} (arg : Arg)

/-- NOP below the last word only advances (R110). -/
theorem exec_nop_of_lt (h : s.pc + 1 < s.memSize) : exec (.nop arg) s = .next s.advanced := by
  rw [exec, execNop, template0_advance, Flow.andThen_done, advancePC_of_lt h]
  rfl

/-- NOP in the last word changes nothing and faults (R110). -/
theorem exec_nop_of_last (h : s.memSize ≤ s.pc + 1) :
    exec (.nop arg) s = .next (takeFault .programCounterOverflow s) := by
  rw [exec, execNop, template0_advance, Flow.andThen_done, advancePC_of_last h]
  rfl

/-- STOP ends the run, whatever the state (R111). -/
theorem exec_stop (s : State) : exec (.stop arg) s = .next (stopRun s) := rfl

end

/-- Settles O14: the advanced state has the next pc and the traced advance. -/
theorem nopAdvances : Obligations.NopAdvances :=
  fun arg _ hpc => exec_nop_of_lt arg hpc

/-- Settles O15: the mask leaves STOP's opcode byte, and the state a run is stopped in differs in the run state and the reply. -/
theorem stopHalts : Obligations.StopHalts := by
  refine ⟨fun w hw => ?_, fun arg s => ⟨stopRun s, exec_stop arg s, ?_⟩⟩
  · exact (matchUnderMaskSelectsInstruction w .stop).2 hw
  · have hstopped : ¬ (stopRun s).enabled := not_enabled_of_rs (by simp)
    simp [hstopped]

section
variable {s : State} (he : s.enabled) (hnop : ∃ arg, decodeWord (s.mem.read s.pc) = .instr (.nop arg))
include he hnop

/-- In a run a NOP below the last word is a step that only advances. -/
theorem step_nop_of_lt (hlt : s.pc + 1 < s.memSize) : step s = .next s.advanced := by
  obtain ⟨arg, hnop⟩ := hnop
  exact (stepRunsDecodedInstruction s _ he (Nat.lt_of_succ_lt hlt) hnop).trans (exec_nop_of_lt arg hlt)

/-- In a run a NOP in the last word is a step that only faults. -/
theorem step_nop_of_last (hlast : s.pc + 1 = s.memSize) : step s = .next (takeFault .programCounterOverflow s) := by
  obtain ⟨arg, hnop⟩ := hnop
  exact (stepRunsDecodedInstruction s _ he hlast.le hnop).trans (exec_nop_of_last arg hlast.ge)

end

/-- Settles O50, by induction on the number of words above the pc: each NOP below the last word leaves one word less to walk, and the
NOP in the last word faults. -/
theorem nopsAreWalkedToTheLastWord : Obligations.NopsAreWalkedToTheLastWord := by
  intro s he hpc hnops
  generalize hk : s.memSize - 1 - s.pc = k
  induction k generalizing s with
  | zero =>
    have hlast : s.pc + 1 = s.memSize := by omega
    exact ⟨s, run_zero s, he, hlast, rfl, rfl, step_nop_of_last he (hnops s.pc le_rfl hpc) hlast⟩
  | succ k ih =>
    have hlt : s.pc + 1 < s.memSize := by omega
    have hk' : s.advanced.memSize - 1 - s.advanced.pc = k := by
      rw [State.advanced_memSize, State.advanced_pc]
      omega
    rw [run_succ (step_nop_of_lt he (hnops s.pc le_rfl hpc) hlt)]
    exact ih s.advanced he hlt (fun a ha => hnops a (Nat.le_of_succ_le ha)) hk'

end Sys2Proof.Machine

/-!
MULT (42_arithmetic_mult.md).
-/

namespace Sys2Proof.Machine

/-- The product MULT pushes is the word of the low 32 bits (R116). -/
theorem product_eq_of_toNat {v w p : Word} (h : p.toNat = v.toNat * w.toNat % 2 ^ 32) : product v w = p :=
  BitVec.eq_of_toNat_eq ((BitVec.toNat_ofNat _ _).trans h.symm)

/-- `s` after MULT's operation, before its advance: two pops and the push of the product (R115). -/
def State.multiplied (s : State) : State := s.popped.popped.pushed (product s.top s.popped.top)

section
variable {s : State}

/-- The word under the top of the stack is the one at sp - 2. -/
theorem State.top_popped (s : State) : s.popped.top = s.mem.read (s.sp - 2).toNat := by
  have hslot : s.popped.sp - 1 = s.sp - 2 := by rw [State.popped_sp]; omega
  rw [State.top, hslot, State.popped_mem]

/-- Two pops trace the upper word and then the lower one, and leave sp two lower. -/
theorem State.popped_popped (s : State) : s.popped.popped = { s with
    sp := s.sp - 2
    out := s.out ++ s.traced (.debugPop (s.sp - 1).toNat s.top) ++ s.traced (.debugPop (s.sp - 2).toNat s.popped.top) } := by
  have hslot : s.popped.sp - 1 = s.sp - 2 := by rw [State.popped_sp]; omega
  rw [State.popped.eq_def s.popped, hslot]
  rfl

/-- The operation replaces the two words on top of the stack by their product, in the slot of the lower one. -/
theorem State.multiplied_eq {v w p : Word} (hv : v = s.mem.read (s.sp - 1).toNat) (hw : w = s.mem.read (s.sp - 2).toNat)
    (hp : p.toNat = v.toNat * w.toNat % 2 ^ 32) :
    s.multiplied = { s with
      mem := s.mem.write (s.sp - 2).toNat p
      sp := s.sp - 1
      out := s.out ++ s.traced (.debugPop (s.sp - 1).toNat v) ++ s.traced (.debugPop (s.sp - 2).toNat w) ++
        s.traced (.debugPush (s.sp - 2).toNat p) } := by
  have hupper : s.top = v := hv.symm
  have hlower : s.popped.top = w := s.top_popped.trans hw.symm
  have hback : s.sp - 2 + 1 = s.sp - 1 := by omega
  rw [State.multiplied, State.popped_popped, hupper, hlower, product_eq_of_toNat hp, State.pushed, hback]
  rfl

/-- MULT on two words is its operation and then the advance: neither pop can fail, and the push has room (R117a). -/
theorem exec_mult_of_two (arg : Arg) (htwo : (s.sb : Int) + 2 ≤ s.sp) (hN : s.sp ≤ s.memSize) :
    exec (.mult arg) s = endStep (advancePC s.multiplied) := by
  have hpop1 : popStack s = .done s.top s.popped := popStack_of_word (by omega) hN
  have hpop2 : popStack s.popped = .done s.popped.top s.popped.popped :=
    popStack_of_word (by simp only [State.popped_sb, State.popped_sp]; omega)
      (by simp only [State.popped_memSize, State.popped_sp]; omega)
  have hpush : pushStack (product s.top s.popped.top) s.popped.popped = .done () s.multiplied :=
    pushStack_of_room (by simp only [State.popped_sp]; omega)
      (by simp only [State.popped_memSize, State.popped_sp]; omega) _
  rw [exec, execMult, template2_eq, hpop1, Flow.andThen_done, template1_eq, hpop2, Flow.andThen_done, template0_advance,
    hpush, Flow.andThen_done]

end

/-- Settles O16: MULT's operation leaves the pc, so the advance completes. -/
theorem multPushesProduct : Obligations.MultPushesProduct := by
  intro arg s operand1 operand2 p htwo hN hpc h1 h2 hp
  have hlt : s.multiplied.pc + 1 < s.multiplied.memSize := hpc
  rw [exec_mult_of_two arg htwo hN, advancePC_of_lt hlt, State.multiplied_eq h1 h2 hp]
  rfl

end Sys2Proof.Machine

/-!
CALL and RET (43_control_call_ret.md).
-/

namespace Sys2Proof.Machine

/-- Settles O17: CALL to an address of the memory only moves the pc, and the moved state is the one stated. -/
theorem callMovesPcToArgument : Obligations.CallMovesPcToArgument :=
  fun _ _ harg => exec_call_of_lt harg

section
variable {s : State} (arg : Arg)

/-- RET on a word is the jump to it after the pop: the pop cannot fail (R121). -/
theorem exec_ret_of_word (hword : (s.sb : Int) < s.sp) (hN : s.sp ≤ s.memSize) :
    exec (.ret arg) s = endStep (template0 false (movePC (wordAddress s.top)) s.popped) := by
  have hpop : popStack s = .done s.top s.popped := popStack_of_word hword hN
  rw [exec, execRet, template1_eq, hpop, Flow.andThen_done]

/-- RET on a word that is an address of the memory pops it and moves the pc to it (R121). -/
theorem exec_ret_of_lt (hword : (s.sb : Int) < s.sp) (hN : s.sp ≤ s.memSize) (htop : wordAddress s.top < s.memSize) :
    exec (.ret arg) s = .next (s.popped.moved (wordAddress s.top)) := by
  have hlt : wordAddress s.top < s.popped.memSize := htop
  rw [exec_ret_of_word arg hword hN, template0_stay, movePC_of_lt hlt, Flow.andThen_done]
  rfl

end

/-- Settles O18: the popped word is the one on top of the stack, and the pop leaves the memory's size. -/
theorem retMovesPcToPoppedWord : Obligations.RetMovesPcToPoppedWord := by
  rintro arg s _ hword hN rfl htop
  exact exec_ret_of_lt arg hword hN htop

end Sys2Proof.Machine

/-!
PRINT and PUSH (44_stack_io_print_push.md): the decimal text of a word, which instructions emit an output, and where the two
complete.
-/

namespace Sys2Proof.Machine

/-! The decimal text of a word (R132). -/

section
variable {d n : Nat} {cs : List Char}

theorem digitValue_digitChar (hd : d < 10) : digitValue (digitChar d) = d := by
  decide +revert

theorem digitChar_mem_range (hd : d < 10) : '0' ≤ digitChar d ∧ digitChar d ≤ '9' := by
  decide +revert

theorem digitChar_ne_zero (hd : d < 10) (h0 : 0 < d) : digitChar d ≠ '0' := by
  decide +revert

theorem decimalValue_append_digit (cs : List Char) (hd : d < 10) :
    decimalValue (cs ++ [digitChar d]) = 10 * decimalValue cs + d := by
  simp [decimalValue, digitValue_digitChar hd]

/-- One digit other than 0 is the shortest text of its value. -/
theorem isDecimalOf_digit (h0 : 0 < d) (hd : d < 10) : isDecimalOf [digitChar d] d := by
  refine ⟨?_, by simpa using digitChar_mem_range hd, by simpa using digitChar_ne_zero hd h0⟩
  simpa [decimalValue] using digitValue_digitChar hd

/-- The text of a positive number has a first digit, and a digit written after it leaves that digit the first. -/
theorem isDecimalOf_append_digit (h : isDecimalOf cs n) (h0 : 0 < n) (hd : d < 10) :
    isDecimalOf (cs ++ [digitChar d]) (10 * n + d) := by
  obtain ⟨hvalue, hrange, hhead⟩ := h
  have hne : cs ≠ [] := by
    rintro rfl
    exact h0.ne hvalue
  refine ⟨by rw [decimalValue_append_digit cs hd, hvalue], fun c hc => ?_, ?_⟩
  · rcases List.mem_append.mp hc with hc | hc
    · exact hrange c hc
    · rw [List.mem_singleton.mp hc]
      exact digitChar_mem_range hd
  · rwa [List.head?_append_of_ne_nil _ hne]

/-- With fuel for all its digits the digits of a positive number are its shortest text: the last one follows those of its tenth. -/
theorem isDecimalOf_digits {fuel : Nat} (h0 : 0 < n) (hn : n < 10 ^ fuel) : isDecimalOf (digits fuel n) n := by
  induction fuel generalizing n with
  | zero => exact absurd hn (by simpa using h0.ne')
  | succ fuel ih =>
    rw [digits]
    split
    next hd => exact isDecimalOf_digit h0 hd
    next hge =>
      have htenth : isDecimalOf (digits fuel (n / 10)) (n / 10) := ih (by omega) (by omega)
      have happend := isDecimalOf_append_digit htenth (by omega) (Nat.mod_lt n (by decide : 10 > 0))
      rwa [Nat.div_add_mod] at happend

end

/-- The magnitude of a word has at most ten digits, the fuel of `decimalText`. -/
theorem isDecimalOf_digits_word {w : Word} (h : w.toInt ≠ 0) : isDecimalOf (digits 10 w.toInt.natAbs) w.toInt.natAbs := by
  have hlo := w.le_two_mul_toInt
  have hhi := w.two_mul_toInt_lt
  exact isDecimalOf_digits (Int.natAbs_pos.mpr h) (by omega)

/-- PRINT renders the signed number of a word (D5). -/
theorem dec_eq_decimalText_toInt (w : Word) : dec w = String.ofList (decimalText w.toInt) := rfl

/-- The text of a positive number is its digits. -/
theorem decimalText_of_pos {v : Int} (h : 0 < v) : decimalText v = digits 10 v.natAbs := if_neg h.not_gt

/-- The text of a negative number is a minus sign before the digits of its magnitude. -/
theorem decimalText_of_neg {v : Int} (h : v < 0) : decimalText v = '-' :: digits 10 v.natAbs := if_pos h

/-- Settles O34: the text is the digits of the magnitude, after a minus sign below zero. -/
theorem decimalTextIsShortestSigned : Obligations.DecimalTextIsShortestSigned := by
  intro w
  refine ⟨fun hzero => ?_, fun hpos => ?_, fun hneg => ?_⟩
  · rw [dec_eq_decimalText_toInt, hzero]
    rfl
  · have hmagnitude : w.toInt.natAbs = w.toInt.toNat := by omega
    refine ⟨digits 10 w.toInt.natAbs, by rw [dec_eq_decimalText_toInt, decimalText_of_pos hpos], ?_⟩
    exact hmagnitude ▸ isDecimalOf_digits_word hpos.ne'
  · have hmagnitude : w.toInt.natAbs = (-w.toInt).toNat := by omega
    refine ⟨digits 10 w.toInt.natAbs, by rw [dec_eq_decimalText_toInt, decimalText_of_neg hneg], ?_⟩
    exact hmagnitude ▸ isDecimalOf_digits_word hneg.ne

/-! Which instructions emit an output (R133). -/

section
variable {i : Instr} {s t u : State}

/-- A debug event carries no text, so tracing it adds none, verbose or not. -/
theorem outputTexts_append_traced (es : List Event) (s : State) {e : Event} (he : e.text = none) :
    outputTexts (es ++ s.traced e) = outputTexts es := by
  rw [State.traced]
  split
  · simp [outputTexts, he]
  · rw [List.append_nil]

theorem outputTexts_popped (s : State) : outputTexts s.popped.out = outputTexts s.out :=
  outputTexts_append_traced _ _ rfl

theorem outputTexts_pushed (s : State) (v : Word) : outputTexts (s.pushed v).out = outputTexts s.out :=
  outputTexts_append_traced _ _ rfl

theorem outputTexts_emit_output (s : State) (text : String) :
    outputTexts (s.emit (.output text)).out = outputTexts s.out ++ [text] :=
  List.filterMap_append

/-- An advance, completing or failing, emits no output. -/
theorem outputTexts_of_advance
    (ht : (u.pc + 1 < u.memSize ∧ t = u.advanced) ∨ (u.memSize ≤ u.pc + 1 ∧ t = takeFault .programCounterOverflow u)) :
    outputTexts t.out = outputTexts u.out := by
  rcases ht with ⟨-, rfl⟩ | ⟨-, rfl⟩
  · exact outputTexts_append_traced _ _ rfl
  · rfl

/-- A move, completing or failing, emits no output. -/
theorem outputTexts_of_move {a : Nat}
    (ht : (a < u.memSize ∧ t = u.moved a) ∨ (u.memSize ≤ a ∧ t = takeFault .programCounterOverflow u)) :
    outputTexts t.out = outputTexts u.out := by
  rcases ht with ⟨-, rfl⟩ | ⟨-, rfl⟩
  · exact outputTexts_append_traced _ _ rfl
  · rfl

theorem outputTexts_exec_of_not_print (h : exec i s = .next t) (hop : i.opcode ≠ .print) :
    outputTexts t.out = outputTexts s.out := by
  cases i with
  | nop arg => exact outputTexts_of_advance (execNop_cases h)
  | mult arg =>
    rcases execMult_cases h with ⟨-, rfl⟩ | ⟨-, -, rfl⟩ | ⟨-, -, hadv⟩
    · rfl
    · exact outputTexts_popped s
    · rw [outputTexts_of_advance (u := s.popped.popped.pushed _) hadv, outputTexts_pushed, outputTexts_popped,
        outputTexts_popped]
  | call arg => exact outputTexts_of_move (execCall_cases h)
  | ret arg =>
    rcases execRet_cases h with ⟨-, rfl⟩ | ⟨-, -, hmove⟩
    · rfl
    · rw [outputTexts_of_move (u := s.popped) hmove, outputTexts_popped]
  | stop arg =>
    rw [execStop_cases h]
    rfl
  | print arg => exact absurd rfl hop
  | push arg =>
    rcases execPush_cases h with ⟨-, rfl⟩ | ⟨-, -, hadv⟩
    · rfl
    · rw [outputTexts_of_advance (u := s.pushed _) hadv, outputTexts_pushed]

/-- PRINT emits the text of the popped word when its pop succeeds, and nothing when it fails. -/
theorem outputTexts_exec_of_print (h : exec i s = .next t) (hop : i.opcode = .print) :
    outputTexts t.out = outputTexts s.out ++ if (s.sb : Int) < s.sp then [dec s.top] else [] := by
  cases i with
  | print arg =>
    rcases execPrint_cases h with ⟨hempty, rfl⟩ | ⟨hword, -, hadv⟩
    · rw [if_neg hempty.not_gt, List.append_nil]
      rfl
    · rw [if_pos hword, outputTexts_of_advance (u := s.popped.emit _) hadv, outputTexts_emit_output, outputTexts_popped]
  | _ => cases hop

end

/-- Settles O30: PRINT adds its output before the advance, and the other instructions only trace. -/
theorem printIsTheOnlyOutput : Obligations.PrintIsTheOnlyOutput := by
  intro i s t h
  by_cases hop : i.opcode = .print
  · simp only [hop, true_and]
    exact outputTexts_exec_of_print h hop
  · simp only [hop, false_and, if_false, List.append_nil]
    exact outputTexts_exec_of_not_print h hop

/-! Where PRINT and PUSH complete. -/

section
variable {s : State} (arg : Arg)

/-- PRINT on a word is its pop, its output and then the advance (R130). -/
theorem exec_print_of_word (hword : (s.sb : Int) < s.sp) (hN : s.sp ≤ s.memSize) :
    exec (.print arg) s = endStep (advancePC (s.popped.emit (.output (dec s.top)))) := by
  have hpop : popStack s = .done s.top s.popped := popStack_of_word hword hN
  rw [exec, execPrint, template1_eq, hpop, Flow.andThen_done, template0_advance, Flow.andThen_done]

/-- PUSH with room is its push and then the advance (R131). -/
theorem exec_push_of_room (h0 : 0 ≤ s.sp) (hroom : s.sp + 1 < s.memSize) :
    exec (.push arg) s = endStep (advancePC (s.pushed (argWord arg))) := by
  have hpush : pushStack (argWord arg) s = .done () (s.pushed (argWord arg)) := pushStack_of_room h0 hroom _
  rw [exec, execPush, template0_advance, hpush, Flow.andThen_done]

/-- A step that ends in an advance below the last word ends in the advanced state. -/
theorem endStep_advance_of_lt (h : s.pc + 1 < s.memSize) : endStep (advancePC s) = .next s.advanced := by
  rw [advancePC_of_lt h]
  rfl

end

/-- Settles O19: the pop and the output leave the pc, so the advance completes. -/
theorem printEmitsPoppedWord : Obligations.PrintEmitsPoppedWord := by
  rintro arg s _ hword hN hpc rfl
  exact (exec_print_of_word arg hword hN).trans (endStep_advance_of_lt hpc)

/-- Settles O20: the push leaves the pc, so the advance completes, and the pushed word is the one with the argument's value. -/
theorem pushPushesArgument : Obligations.PushPushesArgument := by
  intro arg s v h0 hroom hpc hv
  obtain rfl : v = argWord arg := BitVec.eq_of_toNat_eq (hv.trans (argWord_toNat arg).symm)
  exact (exec_push_of_room arg h0 hroom).trans (endStep_advance_of_lt hpc)

end Sys2Proof.Machine

/-!
The host's commands (45_host_commands.md): each command presented outside a run, and the construction sequence that stops at its
first error.
-/

namespace Sys2Proof.Machine

/-! The commands outside a run. -/

section
variable {s : State}

/-- Outside a run the host's next command is performed, with the rest of the script left (R140). -/
theorem step_of_script_cons {c : Command} {cs : List Command} (he : ¬ s.enabled) (h : s.script = c :: cs) :
    step s = performCommand c { s with script := cs } := by
  rw [step_of_not_enabled he, hostStep, h]

theorem performCommand_of_enabled (he : s.enabled) (c : Command) :
    performCommand c s = .refused .commandDuringRun := if_pos he

theorem performCommand_construct (he : ¬ s.enabled) (n : Nat) (memInit : List (Nat × Word)) :
    performCommand (.construct n memInit) s = doConstruct n memInit s := if_neg he
theorem performCommand_setAddress (he : ¬ s.enabled) (a : Word) :
    performCommand (.setAddress a) s = doSetAddress a s := if_neg he
theorem performCommand_insert (he : ¬ s.enabled) (ins : Opcode) (x : Word) :
    performCommand (.insert ins x) s = doInsert ins x s := if_neg he
theorem performCommand_setVerbose (he : ¬ s.enabled) (b : Bool) :
    performCommand (.setVerbose b) s = doSetVerbose b s := if_neg he
theorem performCommand_start (he : ¬ s.enabled) : performCommand .start s = doStart s := if_neg he

end

/-- Settles O12: the step is the host's, and a run in progress refuses every command. -/
theorem hostPresentsOneCommandOutsideRuns : Obligations.HostPresentsOneCommandOutsideRuns :=
  ⟨fun _ _ _ => step_of_script_cons, fun _ c he => performCommand_of_enabled he c⟩

/-- Below N the memory CONSTRUCT allocates reads as the cells list it: the first cell of an address counts (R142). -/
theorem Memory.read_ofCells {n a : Nat} (ha : a < n) (cells : List (Nat × Word)) :
    (Memory.ofCells n cells).read a = (cells.lookup a).getD Config.unlistedWord := by
  induction cells with
  | nil => rfl
  | cons c cells ih =>
    obtain ⟨b, v⟩ := c
    by_cases hab : a = b
    · subst hab
      rw [Memory.ofCells, if_pos ha, Memory.read_write_same (Memory.ofCells_wf n cells), List.lookup_cons_self]
      rfl
    · rw [List.lookup_cons, beq_eq_false_iff_ne.2 hab, ← ih, Memory.ofCells]
      split_ifs
      · exact Memory.read_write_of_ne hab v _
      · rfl

theorem construct_wf_iff {n : Nat} {memInit : List (Nat × Word)} :
    (Command.construct n memInit).wf = true ↔ 1 ≤ n ∧ n ≤ 2 ^ 31 - 1 := decide_eq_true_iff

/-- Settles O35: the size check is CONSTRUCT's only condition, and the constructed memory reads as its cells. -/
theorem constructSetsResetValues : Obligations.ConstructSetsResetValues := by
  intro s n memInit he
  rw [performCommand_construct he, doConstruct]
  refine ⟨fun hn => ⟨_, if_pos (construct_wf_iff.2 hn), ?_⟩, fun hn => if_neg (mt construct_wf_iff.1 hn)⟩
  exact ⟨rfl, fun a ha => Memory.read_ofCells ha memInit, Memory.ofCells_wf n memInit, Memory.ofCells_within n memInit,
    rfl, rfl, rfl, rfl, rfl, rfl, rfl, rfl, rfl⟩

/-- Settles O36: in INITIALIZING SET_ADDRESS is MovePC, its raise a reply. -/
theorem setAddressMovesPcOrReplies : Obligations.SetAddressMovesPcOrReplies := by
  intro s a he
  rw [performCommand_setAddress he, doSetAddress]
  refine ⟨fun hrs hlt => ?_, fun hrs hge => ?_, fun hrs => if_neg hrs⟩
  · rw [if_pos hrs, movePC_of_lt (a := wordAddress a) hlt]
    rfl
  · rw [if_pos hrs, movePC_of_ge (a := wordAddress a) hge]
    rfl

/-- The word of an opcode and a 32-bit value is the code above the value's low 24 bits (R73). -/
theorem encode_toNat (op : Opcode) (x : Word) :
    (encode op x.toNat).toNat = op.code.toNat * 2 ^ 24 + x.toNat % 2 ^ 24 := by
  rw [encode, BitVec.toNat_append, ← Nat.shiftLeft_add_eq_or_of_lt (BitVec.isLt _), Nat.shiftLeft_eq,
    BitVec.ofInt_natCast, BitVec.toNat_ofNat]

/-- Settles O37: INSERT's three branches, and the encoded word is the one with the given value. -/
theorem insertWritesTheInstruction : Obligations.InsertWritesTheInstruction := by
  intro s ins x word he hword
  obtain rfl : word = encode ins x.toNat := BitVec.eq_of_toNat_eq (hword.trans (encode_toNat ins x).symm)
  rw [performCommand_insert he, doInsert, insertInstruction]
  refine ⟨fun hrs => ?_, fun hrs hge => ?_, fun hrs hlt => ?_⟩
  · rw [if_pos hrs]
    rfl
  · rw [if_neg (not_not.2 hrs), if_pos hge]
    rfl
  · rw [if_neg (not_not.2 hrs), if_neg hlt.not_ge, memWrite_of_mem (by omega), Flow.andThen_done]
    rfl

theorem doStart_of_stopped {s : State} (hrs : s.rs = .stopped) (hf : s.fault = none) : doStart s = .next (s.reply .ok) := by
  simp [doStart, hf, hrs]

/-- Settles O39: SET_VERBOSE tests the run state, START the latch and then the run state. -/
theorem setVerboseAndLateStart : Obligations.SetVerboseAndLateStart := by
  intro s he
  refine ⟨fun b hrs => ?_, fun b hrs => ?_, fun hrs hf => ?_, fun e hf => ?_⟩
  · rw [performCommand_setVerbose he, doSetVerbose, if_pos hrs]
    rfl
  · rw [performCommand_setVerbose he, doSetVerbose, if_neg hrs]
  · exact (performCommand_start he).trans (doStart_of_stopped hrs hf)
  · rw [performCommand_start he, doStart, if_pos (by simp [hf])]

/-! Replies and construction sequences (R141). -/

theorem eq_withReplies_of_reply {s : State} {r : Reply} {rs : List Reply} (h : (s.reply r).replies = rs) :
    s.reply r = { s with replies := rs } := by
  rw [← h]
  rfl

/-- Settles O40: the other commands reply ok, START that begins a run gives no reply, and an error adds its reply only. -/
theorem failedCommandsChangeNothing : Obligations.FailedCommandsChangeNothing := by
  intro c s t e h hreplies
  obtain ⟨-, hc⟩ := performCommand_cases h
  cases c with
  | construct n memInit =>
    obtain ⟨-, rfl⟩ := hc
    simp [constructed] at hreplies
  | setAddress a =>
    refine ⟨?_, .inl ⟨a, rfl⟩⟩
    obtain ⟨-, ⟨-, rfl⟩ | ⟨-, rfl⟩⟩ := hc
    · simp at hreplies
    · exact eq_withReplies_of_reply hreplies
  | insert ins x =>
    refine ⟨?_, .inr ⟨ins, x, rfl⟩⟩
    rcases hc with ⟨-, rfl⟩ | ⟨-, -, rfl⟩ | ⟨-, -, rfl⟩
    · exact eq_withReplies_of_reply hreplies
    · exact eq_withReplies_of_reply hreplies
    · simp at hreplies
  | setVerbose b =>
    obtain ⟨-, rfl⟩ := hc
    simp at hreplies
  | start =>
    obtain ⟨-, ⟨-, rfl⟩ | ⟨-, rfl⟩⟩ := hc
    · simp at hreplies
    · simp at hreplies

section
variable {s t u : State}

theorem errorReplied_iff : errorReplied s t = true ↔ ∃ e, t.replies.drop s.replies.length = [.error e] := by
  rw [errorReplied]
  split
  next e h => simp [h]
  next h => simpa using fun e => h e

/-- A command that replies an error ends the sequence it stands in. -/
theorem construction_cons_of_error {c : Command} {e : ErrorName} (hc : performCommand c s = .next t)
    (hreplies : t.replies = s.replies ++ [.error e]) (after : List Command) :
    construction (c :: after) s = .next t := by
  have herr : errorReplied s t = true := errorReplied_iff.2 ⟨e, by rw [hreplies, List.drop_left]⟩
  simp only [construction, hc, if_pos herr]

/-- A sequence whose last reply is no error was performed to its end, so what follows it goes on from there. -/
theorem construction_append {before : List Command} (h : construction before s = .next u)
    (hlast : ∀ e, u.replies.getLast? ≠ some (.error e)) (rest : List Command) :
    construction (before ++ rest) s = construction rest u := by
  induction before generalizing s with
  | nil =>
    cases h
    rfl
  | cons c cs ih =>
    simp only [List.cons_append, construction] at h ⊢
    cases hc : performCommand c s with
    | next v =>
      simp only [hc] at h ⊢
      by_cases herr : errorReplied s v = true
      · rw [if_pos herr] at h
        cases h
        obtain ⟨e, hdrop⟩ := errorReplied_iff.1 herr
        exact absurd (List.getLast?_eq_some_iff.2 ⟨_, (hdrop ▸ List.take_append_drop _ _).symm⟩) (hlast e)
      · rw [if_neg herr] at h ⊢
        exact ih h
    | fault f => simp only [hc] at h; cases h
    | refused r => simp only [hc] at h; cases h

end

/-- Settles O41: the commands before c were all performed, since the last of their replies is ok. -/
theorem constructionStopsAtFirstError : Obligations.ConstructionStopsAtFirstError := by
  intro before after c s u t e hbefore hok hc hreplies
  have happend : construction (before ++ c :: after) s = construction (c :: after) u := by
    cases before with
    | nil =>
      cases hbefore
      rfl
    | cons b bs =>
      refine construction_append hbefore (fun e' => ?_) _
      rw [hok, List.length_cons, List.replicate_succ', ← List.append_assoc, List.getLast?_concat]
      simp
  rw [happend, construction_cons_of_error hc hreplies]

end Sys2Proof.Machine

/-!
The verbose flag (45_host_commands.md R146): the engine run on the untraced state is the untraced run, and of the host's commands
only SET_VERBOSE tells the two apart, by the flag alone.
-/

namespace Sys2Proof.Machine

/-- What `untracedAnswer` does to an answer, done to an operation's end. -/
def Flow.untraced {α : Type} : Flow α → Flow α
  | .done a s => .done a s.untraced
  | .raise e s => .raise e s.untraced
  | .stuck f => .stuck f

/-- An operation that answers the untraced state as the untraced rest of what it answers the state itself. -/
def CommutesWithUntraced {α : Type} (op : State → Flow α) : Prop := ∀ s, op s.untraced = (op s).untraced

/-! The untraced state. -/

section
variable (s : State)

theorem State.untraced_untraced : s.untraced.untraced = s.untraced := by
  simp [State.untraced, List.filter_filter]

theorem untracedAnswer_untracedAnswer (x : Answer) : untracedAnswer (untracedAnswer x) = untracedAnswer x := by
  cases x with
  | next s => exact congrArg Host.Outcome.next s.untraced_untraced
  | fault f => rfl
  | refused r => rfl

/-- The untraced state traces nothing, and a traced debug event is taken out. -/
theorem State.trace_untraced {e : Event} (he : e.isOutput = false) : s.untraced.trace e = (s.trace e).untraced := by
  cases hv : s.verbose <;> simp [State.trace, State.traced, State.untraced, hv, he]

theorem State.emit_output_untraced (text : String) :
    s.untraced.emit (.output text) = (s.emit (.output text)).untraced := by
  simp [State.emit, State.untraced, List.filter_append, List.filter_cons, Event.isOutput]

end

/-! The operations. -/

section
variable {α β : Type}

theorem Flow.andThen_untraced (x : Flow α) {k : α → State → Flow β} (hk : ∀ a, CommutesWithUntraced (k a)) :
    x.untraced.andThen k = (x.andThen k).untraced := by
  cases x with
  | done a s => exact hk a s
  | raise e s => rfl
  | stuck f => rfl

theorem CommutesWithUntraced.andThen {op : State → Flow α} {k : α → State → Flow β} (hop : CommutesWithUntraced op)
    (hk : ∀ a, CommutesWithUntraced (k a)) : CommutesWithUntraced fun s => (op s).andThen k := fun s => by
  simp only [hop s, Flow.andThen_untraced _ hk]

theorem commutesWithUntraced_done : CommutesWithUntraced fun t => .done () t := fun _ => rfl

theorem commutesWithUntraced_output (text : String) :
    CommutesWithUntraced fun t => .done () (t.emit (.output text)) := fun s =>
  congrArg (Flow.done ()) (s.emit_output_untraced text)

theorem commutesWithUntraced_memRead (a : Int) : CommutesWithUntraced (memRead a) := fun s => by
  rw [memRead, memRead, apply_ite Flow.untraced]
  rfl

theorem commutesWithUntraced_memWrite (a : Int) (v : Word) : CommutesWithUntraced (memWrite a v) := fun s => by
  rw [memWrite, memWrite, apply_ite Flow.untraced]
  rfl

theorem commutesWithUntraced_pushStack (v : Word) : CommutesWithUntraced (pushStack v) := fun s => by
  have hwrite : memWrite s.sp v s.untraced = (memWrite s.sp v s).untraced := commutesWithUntraced_memWrite s.sp v s
  rw [pushStack, pushStack, apply_ite Flow.untraced, ← Flow.andThen_untraced, ← hwrite]
  · rfl
  · exact fun _ t => congrArg (Flow.done ()) (State.trace_untraced { t with sp := t.sp + 1 } rfl)

theorem commutesWithUntraced_popStack : CommutesWithUntraced popStack := fun s => by
  have hread := commutesWithUntraced_memRead (s.sp - 1) { s with sp := s.sp - 1 }
  rw [popStack, popStack, apply_ite Flow.untraced, ← Flow.andThen_untraced, ← hread]
  · rfl
  · exact fun v t => congrArg (Flow.done v) (State.trace_untraced _ rfl)

theorem commutesWithUntraced_movePC (a : Nat) : CommutesWithUntraced (movePC a) := fun s => by
  rw [movePC, movePC, apply_ite Flow.untraced, Flow.untraced, Flow.untraced, ← State.trace_untraced _ rfl]
  rfl

theorem commutesWithUntraced_advancePC : CommutesWithUntraced advancePC := fun s => by
  rw [advancePC, advancePC, apply_ite Flow.untraced, Flow.untraced, Flow.untraced, ← State.trace_untraced _ rfl]
  rfl

theorem commutesWithUntraced_insertInstruction (ins : Opcode) (x : Word) :
    CommutesWithUntraced (insertInstruction ins x) := fun s => by
  have hwrite := commutesWithUntraced_memWrite s.pc (encode ins x.toNat) s
  rw [insertInstruction, insertInstruction, apply_ite Flow.untraced, apply_ite Flow.untraced, ← Flow.andThen_untraced,
    ← hwrite]
  · rfl
  · exact fun _ t => congrArg (Flow.done ())
      (State.trace_untraced { t with pc := t.pc + 1, sb := max t.sb (t.pc + 1) } rfl)

theorem CommutesWithUntraced.template0 {op : State → Flow Unit} (hop : CommutesWithUntraced op) (adv : Bool) :
    CommutesWithUntraced (template0 adv op) :=
  hop.andThen fun _ => by
    cases adv with
    | true => exact commutesWithUntraced_advancePC
    | false => exact commutesWithUntraced_done

theorem CommutesWithUntraced.template1 {op : Word → State → Flow Unit} (hop : ∀ v, CommutesWithUntraced (op v))
    (adv : Bool) : CommutesWithUntraced (template1 adv op) :=
  commutesWithUntraced_popStack.andThen fun v => (hop v).template0 adv

theorem CommutesWithUntraced.template2 {op : Word → Word → State → Flow Unit}
    (hop : ∀ v w, CommutesWithUntraced (op v w)) (adv : Bool) : CommutesWithUntraced (template2 adv op) :=
  commutesWithUntraced_popStack.andThen fun v => .template1 (hop v) adv

end

/-! The engine's step. -/

section
variable (s : State)

theorem CommutesWithUntraced.endStep {op : State → Flow Unit} (hop : CommutesWithUntraced op) :
    endStep (op s.untraced) = untracedAnswer (endStep (op s)) := by
  rw [hop s]
  cases op s <;> rfl

theorem CommutesWithUntraced.endCommand {op : State → Flow Unit} (hop : CommutesWithUntraced op) :
    endCommand (op s.untraced) = untracedAnswer (endCommand (op s)) := by
  rw [hop s]
  cases op s <;> rfl

/-- R26: an instruction computes the same whatever the verbose flag. -/
theorem exec_untraced (i : Instr) : exec i s.untraced = untracedAnswer (exec i s) := by
  cases i with
  | nop _ => exact (commutesWithUntraced_done.template0 true).endStep s
  | mult _ =>
    exact (CommutesWithUntraced.template2 (fun _ _ => commutesWithUntraced_pushStack _) true).endStep s
  | call arg => exact ((commutesWithUntraced_movePC _).template0 false).endStep s
  | ret _ => exact (CommutesWithUntraced.template1 (fun _ => commutesWithUntraced_movePC _) false).endStep s
  | stop _ => rfl
  | print _ =>
    exact (CommutesWithUntraced.template1 (fun v => commutesWithUntraced_output (dec v)) true).endStep s
  | push arg => exact ((commutesWithUntraced_pushStack _).template0 true).endStep s

theorem engineStep_untraced : engineStep s.untraced = untracedAnswer (engineStep s) := by
  by_cases hpc : s.pc < s.memSize
  · cases hd : decodeWord (s.mem.read s.pc) with
    | instr i => rw [engineStep_of_instr hpc hd, engineStep_of_instr (s := s.untraced) hpc hd, exec_untraced]
    | invalid b =>
      rw [engineStep_of_invalid hpc hd, engineStep_of_invalid (s := s.untraced) hpc hd]
      rfl
  · have hge : s.memSize ≤ s.pc := by omega
    rw [engineStep_of_pc_ge hge, engineStep_of_pc_ge (s := s.untraced) hge]
    rfl

/-! The host's commands. -/

theorem doConstruct_untraced (n : Nat) (memInit : List (Nat × Word)) :
    doConstruct n memInit s.untraced = untracedAnswer (doConstruct n memInit s) := by
  rw [doConstruct, doConstruct, apply_ite untracedAnswer]
  rfl

theorem doSetAddress_untraced (a : Word) : doSetAddress a s.untraced = untracedAnswer (doSetAddress a s) := by
  rw [doSetAddress, doSetAddress, apply_ite untracedAnswer, ← (commutesWithUntraced_movePC (wordAddress a)).endCommand]
  rfl

theorem doInsert_untraced (ins : Opcode) (x : Word) : doInsert ins x s.untraced = untracedAnswer (doInsert ins x s) :=
  (commutesWithUntraced_insertInstruction ins x).endCommand s

/-- SET_VERBOSE sets the flag of the untraced state too, so it is only alike once the flag is taken out again. -/
theorem doSetVerbose_untraced (b : Bool) :
    untracedAnswer (doSetVerbose b s.untraced) = untracedAnswer (doSetVerbose b s) := by
  rw [doSetVerbose, doSetVerbose, apply_ite untracedAnswer, apply_ite untracedAnswer]
  have h : (State.reply { s.untraced with verbose := b } .ok).untraced = (State.reply { s with verbose := b } .ok).untraced :=
    (s.reply .ok).untraced_untraced
  rw [untracedAnswer, untracedAnswer, h]
  rfl

theorem doStart_untraced : doStart s.untraced = untracedAnswer (doStart s) := by
  cases s with
  | mk mem memSize pc sp sb rs verbose fault out script replies => cases fault <;> cases rs <;> rfl

theorem performCommand_untraced (c : Command) :
    untracedAnswer (performCommand c s.untraced) = untracedAnswer (performCommand c s) := by
  by_cases he : s.enabled
  · rw [performCommand_of_enabled he, performCommand_of_enabled (s := s.untraced) he]
  have he' : ¬ s.untraced.enabled := he
  cases c with
  | construct n memInit =>
    rw [performCommand_construct he, performCommand_construct he', doConstruct_untraced, untracedAnswer_untracedAnswer]
  | setAddress a =>
    rw [performCommand_setAddress he, performCommand_setAddress he', doSetAddress_untraced, untracedAnswer_untracedAnswer]
  | insert ins x =>
    rw [performCommand_insert he, performCommand_insert he', doInsert_untraced, untracedAnswer_untracedAnswer]
  | setVerbose b => rw [performCommand_setVerbose he, performCommand_setVerbose he', doSetVerbose_untraced]
  | start => rw [performCommand_start he, performCommand_start he', doStart_untraced, untracedAnswer_untracedAnswer]

/-- R146: a step of the untraced state is, untraced, a step of the state. -/
theorem step_untraced : untracedAnswer (step s.untraced) = untracedAnswer (step s) := by
  by_cases he : s.enabled
  · rw [step_of_enabled he, step_of_enabled (s := s.untraced) he, engineStep_untraced, untracedAnswer_untracedAnswer]
  · cases hs : s.script with
    | nil =>
      rw [step_of_script_nil he hs, step_of_script_nil (s := s.untraced) he hs]
      rfl
    | cons c cs =>
      rw [step_of_script_cons he hs, step_of_script_cons (s := s.untraced) he hs]
      exact performCommand_untraced { s with script := cs } c

end

/-- Settles O52: both steps are, untraced, the step of the one untraced state. -/
theorem verboseHasNoEffectOnResults : Obligations.VerboseHasNoEffectOnResults := by
  intro s t h
  rw [← step_untraced s, h, step_untraced t]

end Sys2Proof.Machine

/-!
The exceptions (60_exceptions.md): where an instruction traps and what it has done by then, which faults it can raise, and the codes
of the faults.
-/

namespace Sys2Proof.Machine

/-! Where an instruction traps (R164, R167). -/

section
variable {s : State}

/-- A step that ends in an advance in the last word ends in its fault, with all done before it kept (R93). -/
theorem endStep_advance_of_last (h : s.memSize ≤ s.pc + 1) :
    endStep (advancePC s) = .next (takeFault .programCounterOverflow s) := by
  rw [advancePC_of_last h]
  rfl

/-- A step that ends in a move out of memory ends in its fault, with all done before it kept (R92). -/
theorem endStep_move_of_ge {a : Nat} (h : s.memSize ≤ a) :
    endStep (template0 false (movePC a) s) = .next (takeFault .programCounterOverflow s) := by
  rw [template0_stay, movePC_of_ge h]
  rfl

/-- A step that begins with a pop of the empty stack is its fault: what would follow the pop does not happen (R91). -/
theorem endStep_pop_of_empty (h : s.sp ≤ s.sb) (k : Word → State → Flow Unit) :
    endStep ((popStack s).andThen k) = .next (takeFault .stackUnderflow { s with sp := s.sp - 1 }) := by
  rw [popStack_of_empty h]
  rfl

/-- A step that begins with a push without room is its fault, with nothing done (R90). -/
theorem endStep_push_of_full (h : (s.memSize : Int) ≤ s.sp + 1) (v : Word) (k : Unit → State → Flow Unit) :
    endStep ((pushStack v s).andThen k) = .next (takeFault .stackOverflow s) := by
  rw [pushStack_of_full h]
  rfl

/-- The one word of the stack is the one at the stack bottom, and its pop leaves sp there. -/
theorem State.popped_of_one (hone : s.sp = (s.sb : Int) + 1) :
    s.popped = { s with sp := s.sb, out := s.out ++ s.traced (.debugPop s.sb (s.mem.read s.sb)) } := by
  have hslot : s.sp - 1 = s.sb := by omega
  rw [State.popped, State.top, hslot, Int.toNat_natCast]
  rfl

/-- MULT on one word pops it, and its second pop finds the stack empty (42_arithmetic_mult.md R115). -/
theorem exec_mult_of_one (arg : Arg) (hone : s.sp = (s.sb : Int) + 1) (hN : s.sp ≤ s.memSize) :
    exec (.mult arg) s = .next (takeFault .stackUnderflow { s.popped with sp := s.popped.sp - 1 }) := by
  have hpop : popStack s = .done s.top s.popped := popStack_of_word (by omega) hN
  have hempty : s.popped.sp ≤ s.popped.sb := by rw [State.popped_sp, State.popped_sb]; omega
  rw [exec, execMult, template2_eq, hpop, Flow.andThen_done, template1_eq, endStep_pop_of_empty hempty]

end

/-- Settles O21: what PRINT, PUSH and MULT do before their advance leaves the pc in the last word, and the advance fails there. -/
theorem advanceFaultsInLastWordAfterTheEffect : Obligations.AdvanceFaultsInLastWordAfterTheEffect := by
  intro arg s hlast
  refine ⟨exec_nop_of_last arg hlast, ?_, ?_, ?_⟩
  · rintro hword hN _ rfl
    exact (exec_print_of_word arg hword hN).trans (endStep_advance_of_last hlast)
  · intro h0 hroom v hv
    obtain rfl : v = argWord arg := BitVec.eq_of_toNat_eq (hv.trans (argWord_toNat arg).symm)
    exact (exec_push_of_room arg h0 hroom).trans (endStep_advance_of_last hlast)
  · intro htwo hN operand1 operand2 p h1 h2 hp
    have hlast' : s.multiplied.memSize ≤ s.multiplied.pc + 1 := hlast
    rw [exec_mult_of_two arg htwo hN, endStep_advance_of_last hlast', State.multiplied_eq h1 h2 hp]

/-- Settles O22: the move is CALL's only act, and RET's after a pop that cannot fail. -/
theorem jumpsOutOfMemoryFault : Obligations.JumpsOutOfMemoryFault := by
  refine fun arg s => ⟨fun harg => endStep_move_of_ge harg, ?_⟩
  rintro _ hword hN rfl htop
  exact (exec_ret_of_word arg hword hN).trans (endStep_move_of_ge htop)

/-- Settles O23: MULT, RET and PRINT begin with a pop, and MULT on one word goes on with a pop of the empty stack. -/
theorem popsOfTheEmptyStackFault : Obligations.PopsOfTheEmptyStackFault := by
  refine fun arg s => ⟨fun hempty => ?_, fun hone hN => ?_⟩
  · exact ⟨endStep_pop_of_empty hempty _, endStep_pop_of_empty hempty _, endStep_pop_of_empty hempty _⟩
  · have hsp : (s.sb : Int) - 1 = s.sp - 2 := by omega
    rw [exec_mult_of_one arg hone hN, State.popped_of_one hone, hsp]

/-- Settles O24: PUSH begins with its push. -/
theorem pushOnTheFullStackFaults : Obligations.PushOnTheFullStackFaults :=
  fun arg _ hfull => endStep_push_of_full (sub_le_iff_le_add.mp hfull) (argWord arg) _

/-! Which faults an instruction can raise (R162), and their codes (R160). -/

/-- Settles O25: an instruction keeps the latch or sets it to a fault of its row. -/
theorem instructionsRaiseOnlyTheirFaults : Obligations.InstructionsRaiseOnlyTheirFaults := by
  intro i s t e h hclear hset
  rcases (exec_frame h).fault with hkept | ⟨raised, hrow, hraised, -⟩
  · rw [hkept, hclear] at hset
    cases hset
  · obtain rfl : raised = e := Option.some.inj (hraised.symm.trans hset)
    exact hrow

/-- The fault a code stands for, none for 0: the table of R160 read from the number (D19). -/
def faultOfCode : Nat → Option ErrorName
  | 1 => some .stackUnderflow
  | 2 => some .stackOverflow
  | 3 => some .programCounterOverflow
  | 4 => some .invalidInsertState
  | 5 => some .insertAddressOutOfRange
  | 6 => some .invalidInstruction
  | 7 => some .fetchAddressOutOfRange
  | _ => none

theorem faultOfCode_code (e : ErrorName) : faultOfCode e.code = some e := by cases e <;> rfl

section
variable {s : State}

theorem faultCode_of_no_fault (h : s.fault = none) : s.faultCode = 0 := by rw [State.faultCode, h]

theorem faultCode_of_fault {e : ErrorName} (h : s.fault = some e) : s.faultCode = e.code := by rw [State.faultCode, h]

/-- The latch is read back from its code. -/
theorem faultOfCode_faultCode (s : State) : faultOfCode s.faultCode = s.fault := by
  cases hf : s.fault with
  | none => rw [faultCode_of_no_fault hf]; rfl
  | some e => rw [faultCode_of_fault hf, faultOfCode_code]

end

/-- Settles O26: the code has a left inverse, which gives no fault for 0. -/
theorem faultCodeNamesTheFault : Obligations.FaultCodeNamesTheFault := by
  refine ⟨fun s => ⟨fun hzero => ?_, faultCode_of_no_fault⟩, fun s e hf => ?_, fun s t hcode => ?_⟩
  · rw [← faultOfCode_faultCode, hzero]
    rfl
  · rw [faultCode_of_fault hf]
    cases e <;> decide
  · rw [← faultOfCode_faultCode, hcode, faultOfCode_faultCode]

end Sys2Proof.Machine

/-!
The codec's words of the test vectors (95_test_vectors.md section 2.1).
-/

namespace Sys2Proof

/-- Settles O6: the two fields of each legal word are its instruction's code and argument, and the table does not know the opcode
byte of the other two. -/
theorem sampleWordsDecode : Obligations.SampleWordsDecode := by
  unfold Obligations.SampleWordsDecode
  simp only [decodeWord_eq_instr_iff, decodeWord_eq_invalid_iff]
  decide

end Sys2Proof
